-- ==== Sys2Proof/Word.lean ====
section
/-! DEFINITION. The words of the core, by width (00_scope.md R8, R9: every value is an unsigned integer of a stated width). -/

namespace Sys2Proof

/-- A nibble: a register number, a key number or a sprite height (R81, R82). -/
abbrev Nibble := BitVec 4

/-- A byte: a general register, a timer, a memory byte, an immediate `nn` (R21, R30, R50). -/
abbrev Byte := BitVec 8

/-- The 12-bit immediate `nnn` of an instruction (R82). -/
abbrev Addr := BitVec 12

/-- A 16-bit word: an instruction, `pc`, `I`, a stack slot (R80, R24, R25, R27). -/
abbrev Word := BitVec 16

end Sys2Proof
end

