-- ==== Sys2Proof/Config.lean ====
section
/-! DEFINITION. What an implementation of the core fixes: the fixed parameters of 00_scope.md R6, the configuration
parameters of 00_scope.md R7, and the free value `RNG`. -/

namespace Sys2Proof

/-! ## Fixed parameters (R6) -/

/-- `MEM_SIZE`: memory is 0x000 to 0xFFF. -/
def memSize : Nat := 4096

/-- `PROG_BASE`: where the image is loaded, the first address that is not reserved, and the reset value of `pc`. -/
def progBase : Nat := 0x200

/-- `MAX_IMAGE`: the longest image `loadProgram` takes, `MEM_SIZE` less `PROG_BASE`. -/
def maxImage : Nat := 3584

/-- `STACK_DEPTH`: how many frames the call stack holds. -/
def stackDepth : Nat := 16

/-- The flag register VF, register 15 (R22). -/
def flagReg : Nibble := 0xF

/-! ## Configuration parameters (R7) -/

/-- `CFG_SHIFT_SOURCE`: which register 8xy6 and 8xyE shift (decision D5). -/
inductive ShiftSource where
  | vx
  | vy
  deriving DecidableEq, Repr

/-- `CFG_RESERVED_WRITE`: what a data write to 0x000-0x1FF does (decision D13). -/
inductive ReservedWrite where
  | allow
  | fault
  deriving DecidableEq, Repr

/-- `CFG_KEY_INDEX_HIGH`: how Ex9E and ExA1 treat a key index of 16 or more (decision D14). -/
inductive KeyIndexHigh where
  | notPressed
  | lowNibble
  deriving DecidableEq, Repr

/-- `FONT`: 80 bytes, 16 glyphs of 5 bytes (R52). -/
abbrev Font := Vector Byte 80

/-- The configuration parameters of R7 that are values. (`RNG`, a draw, is `Config.rng`.) -/
structure Config where
  /-- `CFG_STRICT_DECODE`: whether the nibbles the table shows as fixed are checked (R86, D1). -/
  strictDecode : Bool
  /-- `CFG_SHIFT_SOURCE`. -/
  shiftSource : ShiftSource
  /-- `CFG_RESERVED_WRITE`. -/
  reservedWrite : ReservedWrite
  /-- `CFG_KEY_INDEX_HIGH`. -/
  keyIndexHigh : KeyIndexHigh
  /-- `FONT`. -/
  font : Font
  deriving DecidableEq, Repr

/-! ## The free value -/

/-- `RNG` (R7, D15): the byte that draw number `k` gives. It has no body, so nothing can be proved of any draw: the spec
admits every value, under no law (log entry 4). -/
opaque Config.rng : Nat → Byte

end Sys2Proof
end

