-- ==== Sys2Proof/Machine/Defaults.lean ====
section
/-! DEFINITION. The default values of the configuration parameters (00_scope.md R7; 20_memory.md R52). -/

namespace Sys2Proof

/-- The default `FONT`, the table of 20_memory.md R52. PRESUMED: the spec marks these bytes as general knowledge, not in
the source (log entry 3). -/
def defaultFont : Font :=
  #v[0xF0, 0x90, 0x90, 0x90, 0xF0,   0x20, 0x60, 0x20, 0x20, 0x70,
     0xF0, 0x10, 0xF0, 0x80, 0xF0,   0xF0, 0x10, 0xF0, 0x10, 0xF0,
     0x90, 0x90, 0xF0, 0x10, 0x10,   0xF0, 0x80, 0xF0, 0x10, 0xF0,
     0xF0, 0x80, 0xF0, 0x90, 0xF0,   0xF0, 0x10, 0x20, 0x40, 0x40,
     0xF0, 0x90, 0xF0, 0x90, 0xF0,   0xF0, 0x90, 0xF0, 0x10, 0xF0,
     0xF0, 0x90, 0xF0, 0x90, 0x90,   0xE0, 0x90, 0xE0, 0x90, 0xE0,
     0xF0, 0x80, 0x80, 0x80, 0xF0,   0xE0, 0x90, 0x90, 0x90, 0xE0,
     0xF0, 0x80, 0xF0, 0x80, 0xF0,   0xF0, 0x80, 0xF0, 0x80, 0x80]

/-- The default of each parameter (R7; decisions D1, D5, D13, D14, D16). DESIGN CHOICE: it is the configuration of
`State.reset`, no more; statements hold for every configuration or name the one they assume (log entry 2). -/
def Config.default : Config where
  strictDecode := true
  shiftSource := .vx
  reservedWrite := .allow
  keyIndexHigh := .notPressed
  font := defaultFont

end Sys2Proof
end

