-- ==== Sys2Proof/Syntax.lean ====
section
/-! DEFINITION. The 34 operations of 30_encoding.md R84, one constructor for each row of opcode_table.json. -/

namespace Sys2Proof

/-- An operation with its operand fields (R84, R85). `x` and `y` are register numbers, `nn` an 8-bit immediate, `nnn` a
12-bit address, `n` a 4-bit count; each width is exact, so every term is an instruction the core has (R83: all 16 values
of `x` and `y` are legal). -/
inductive Instr where
  /-- 00E0 `CLS` -/
  | cls
  /-- 00EE `RET` -/
  | ret
  /-- 1nnn `JP addr` -/
  | jp (nnn : Addr)
  /-- 2nnn `CALL addr` -/
  | call (nnn : Addr)
  /-- 3xnn `SE Vx, byte` -/
  | seImm (x : Nibble) (nn : Byte)
  /-- 4xnn `SNE Vx, byte` -/
  | sneImm (x : Nibble) (nn : Byte)
  /-- 5xy0 `SE Vx, Vy` -/
  | seReg (x y : Nibble)
  /-- 6xnn `LD Vx, byte` -/
  | ldImm (x : Nibble) (nn : Byte)
  /-- 7xnn `ADD Vx, byte` -/
  | addImm (x : Nibble) (nn : Byte)
  /-- 8xy0 `LD Vx, Vy` -/
  | ldReg (x y : Nibble)
  /-- 8xy1 `OR Vx, Vy` -/
  | or (x y : Nibble)
  /-- 8xy2 `AND Vx, Vy` -/
  | and (x y : Nibble)
  /-- 8xy3 `XOR Vx, Vy` -/
  | xor (x y : Nibble)
  /-- 8xy4 `ADD Vx, Vy` -/
  | addReg (x y : Nibble)
  /-- 8xy5 `SUB Vx, Vy` -/
  | sub (x y : Nibble)
  /-- 8xy6 `SHR Vx, Vy` -/
  | shr (x y : Nibble)
  /-- 8xy7 `SUBN Vx, Vy` -/
  | subn (x y : Nibble)
  /-- 8xyE `SHL Vx, Vy` -/
  | shl (x y : Nibble)
  /-- 9xy0 `SNE Vx, Vy` -/
  | sneReg (x y : Nibble)
  /-- Annn `LD I, addr` -/
  | ldI (nnn : Addr)
  /-- Bnnn `JP V0, addr` -/
  | jpV0 (nnn : Addr)
  /-- Cxnn `RND Vx, byte` -/
  | rnd (x : Nibble) (nn : Byte)
  /-- Dxyn `DRW Vx, Vy, nibble` -/
  | drw (x y n : Nibble)
  /-- Ex9E `SKP Vx` -/
  | skp (x : Nibble)
  /-- ExA1 `SKNP Vx` -/
  | sknp (x : Nibble)
  /-- Fx07 `LD Vx, DT` -/
  | ldVDt (x : Nibble)
  /-- Fx0A `LD Vx, K` -/
  | ldVK (x : Nibble)
  /-- Fx15 `LD DT, Vx` -/
  | ldDtV (x : Nibble)
  /-- Fx18 `LD ST, Vx` -/
  | ldStV (x : Nibble)
  /-- Fx1E `ADD I, Vx` -/
  | addI (x : Nibble)
  /-- Fx29 `LD F, Vx` -/
  | ldF (x : Nibble)
  /-- Fx33 `LD B, Vx` -/
  | ldB (x : Nibble)
  /-- Fx55 `LD [I], Vx` -/
  | ldMemV (x : Nibble)
  /-- Fx65 `LD Vx, [I]` -/
  | ldVMem (x : Nibble)
  deriving DecidableEq, Repr

/-- The mnemonic of each operation (30_encoding.md R90; the spec takes them from general knowledge, and they carry no
meaning). -/
def Instr.mnemonic : Instr → String
  | .cls => "CLS"
  | .ret => "RET"
  | .jp _ => "JP addr"
  | .call _ => "CALL addr"
  | .seImm _ _ => "SE Vx, byte"
  | .sneImm _ _ => "SNE Vx, byte"
  | .seReg _ _ => "SE Vx, Vy"
  | .ldImm _ _ => "LD Vx, byte"
  | .addImm _ _ => "ADD Vx, byte"
  | .ldReg _ _ => "LD Vx, Vy"
  | .or _ _ => "OR Vx, Vy"
  | .and _ _ => "AND Vx, Vy"
  | .xor _ _ => "XOR Vx, Vy"
  | .addReg _ _ => "ADD Vx, Vy"
  | .sub _ _ => "SUB Vx, Vy"
  | .shr _ _ => "SHR Vx, Vy"
  | .subn _ _ => "SUBN Vx, Vy"
  | .shl _ _ => "SHL Vx, Vy"
  | .sneReg _ _ => "SNE Vx, Vy"
  | .ldI _ => "LD I, addr"
  | .jpV0 _ => "JP V0, addr"
  | .rnd _ _ => "RND Vx, byte"
  | .drw _ _ _ => "DRW Vx, Vy, nibble"
  | .skp _ => "SKP Vx"
  | .sknp _ => "SKNP Vx"
  | .ldVDt _ => "LD Vx, DT"
  | .ldVK _ => "LD Vx, K"
  | .ldDtV _ => "LD DT, Vx"
  | .ldStV _ => "LD ST, Vx"
  | .addI _ => "ADD I, Vx"
  | .ldF _ => "LD F, Vx"
  | .ldB _ => "LD B, Vx"
  | .ldMemV _ => "LD [I], Vx"
  | .ldVMem _ => "LD Vx, [I]"

end Sys2Proof
end

