-- ==== Sys2Proof/Decode.lean ====
section
/-! DEFINITION. From words to instructions and back (30_encoding.md R80-R91). -/

namespace Sys2Proof

/-! ## Field extractors (R81) -/

/-- The opcode family, `w[15:12]`. -/
def highNibble (w : Word) : Nibble := w.extractLsb' 12 4

/-- `w[11:8]`, a register number. -/
def fieldX (w : Word) : Nibble := w.extractLsb' 8 4

/-- `w[7:4]`, a register number. -/
def fieldY (w : Word) : Nibble := w.extractLsb' 4 4

/-- `w[3:0]`, a count or a discriminant. -/
def fieldN (w : Word) : Nibble := w.extractLsb' 0 4

/-- `w[7:0]`, an immediate or a discriminant. -/
def fieldNN (w : Word) : Byte := w.extractLsb' 0 8

/-- `w[11:0]`, an address. -/
def fieldNNN (w : Word) : Addr := w.extractLsb' 0 12

/-! ## Decode (R85, R86) -/

/-- Why bytes are no instruction. -/
inductive DecodeError where
  /-- The word matches no operation (R87). -/
  | unknownOpcode (word : Word)
  /-- Fewer than two bytes (an instruction is always two, R80). -/
  | truncated (count : Nat)
  deriving DecidableEq, Repr

/-- Family 0: the low byte selects; bits 11-8 are checked when strict. -/
def decodeFamily0 (strict : Bool) (w : Word) : Except DecodeError Instr :=
  if strict ∧ fieldX w ≠ 0 then .error (.unknownOpcode w)
  else if fieldNN w = 0xE0 then .ok .cls
  else if fieldNN w = 0xEE then .ok .ret
  else .error (.unknownOpcode w)

/-- Family 8: the low nibble selects. -/
def decodeFamily8 (w : Word) : Except DecodeError Instr :=
  let x := fieldX w
  let y := fieldY w
  match (fieldN w).toNat with
  | 0x0 => .ok (.ldReg x y)
  | 0x1 => .ok (.or x y)
  | 0x2 => .ok (.and x y)
  | 0x3 => .ok (.xor x y)
  | 0x4 => .ok (.addReg x y)
  | 0x5 => .ok (.sub x y)
  | 0x6 => .ok (.shr x y)
  | 0x7 => .ok (.subn x y)
  | 0xE => .ok (.shl x y)
  | _ => .error (.unknownOpcode w)

/-- Family E: the low byte selects. -/
def decodeFamilyE (w : Word) : Except DecodeError Instr :=
  match (fieldNN w).toNat with
  | 0x9E => .ok (.skp (fieldX w))
  | 0xA1 => .ok (.sknp (fieldX w))
  | _ => .error (.unknownOpcode w)

/-- Family F: the low byte selects. -/
def decodeFamilyF (w : Word) : Except DecodeError Instr :=
  let x := fieldX w
  match (fieldNN w).toNat with
  | 0x07 => .ok (.ldVDt x)
  | 0x0A => .ok (.ldVK x)
  | 0x15 => .ok (.ldDtV x)
  | 0x18 => .ok (.ldStV x)
  | 0x1E => .ok (.addI x)
  | 0x29 => .ok (.ldF x)
  | 0x33 => .ok (.ldB x)
  | 0x55 => .ok (.ldMemV x)
  | 0x65 => .ok (.ldVMem x)
  | _ => .error (.unknownOpcode w)

/-- Families 5 and 9: the low nibble is checked when strict. -/
def decodePair (strict : Bool) (w : Word) (op : Nibble → Nibble → Instr) : Except DecodeError Instr :=
  if strict ∧ fieldN w ≠ 0 then .error (.unknownOpcode w) else .ok (op (fieldX w) (fieldY w))

/-- R85: a total function from a word to an operation or UnknownOpcode, reading nothing but `CFG_STRICT_DECODE`. -/
def decode (strict : Bool) (w : Word) : Except DecodeError Instr :=
  match (highNibble w).toNat with
  | 0x0 => decodeFamily0 strict w
  | 0x1 => .ok (.jp (fieldNNN w))
  | 0x2 => .ok (.call (fieldNNN w))
  | 0x3 => .ok (.seImm (fieldX w) (fieldNN w))
  | 0x4 => .ok (.sneImm (fieldX w) (fieldNN w))
  | 0x5 => decodePair strict w .seReg
  | 0x6 => .ok (.ldImm (fieldX w) (fieldNN w))
  | 0x7 => .ok (.addImm (fieldX w) (fieldNN w))
  | 0x8 => decodeFamily8 w
  | 0x9 => decodePair strict w .sneReg
  | 0xA => .ok (.ldI (fieldNNN w))
  | 0xB => .ok (.jpV0 (fieldNNN w))
  | 0xC => .ok (.rnd (fieldX w) (fieldNN w))
  | 0xD => .ok (.drw (fieldX w) (fieldY w) (fieldN w))
  | 0xE => decodeFamilyE w
  | _ => decodeFamilyF w

/-! ## Bytes (R56, R80: two bytes, big-endian) -/

/-- The word that two bytes make, the first of them the high one. -/
def wordOfBytes (hi lo : Byte) : Word := hi ++ lo

/-- The first byte of a word in memory. -/
def highByte (w : Word) : Byte := w.extractLsb' 8 8

/-- The second byte of a word in memory. -/
def lowByte (w : Word) : Byte := w.extractLsb' 0 8

/-- Read one instruction off a byte sequence, with what is left of it. Total on any bytes. -/
def decodeBytes (strict : Bool) : List Byte → Except DecodeError (Instr × List Byte)
  | hi :: lo :: rest => (decode strict (wordOfBytes hi lo)).map (·, rest)
  | short => .error (.truncated short.length)

/-! ## Encode (R80, R84) -/

/-- `f`, `x` and `nn` as one word. -/
def wordFXNN (f x : Nibble) (nn : Byte) : Word := f ++ x ++ nn

/-- `f`, `x`, `y` and `n` as one word. -/
def wordFXYN (f x y n : Nibble) : Word := f ++ x ++ y ++ n

/-- `f` and `nnn` as one word. -/
def wordFNNN (f : Nibble) (nnn : Addr) : Word := f ++ nnn

/-- The word of an instruction, from the table of R84. -/
def encode : Instr → Word
  | .cls => wordFNNN 0x0 0x0E0
  | .ret => wordFNNN 0x0 0x0EE
  | .jp nnn => wordFNNN 0x1 nnn
  | .call nnn => wordFNNN 0x2 nnn
  | .seImm x nn => wordFXNN 0x3 x nn
  | .sneImm x nn => wordFXNN 0x4 x nn
  | .seReg x y => wordFXYN 0x5 x y 0x0
  | .ldImm x nn => wordFXNN 0x6 x nn
  | .addImm x nn => wordFXNN 0x7 x nn
  | .ldReg x y => wordFXYN 0x8 x y 0x0
  | .or x y => wordFXYN 0x8 x y 0x1
  | .and x y => wordFXYN 0x8 x y 0x2
  | .xor x y => wordFXYN 0x8 x y 0x3
  | .addReg x y => wordFXYN 0x8 x y 0x4
  | .sub x y => wordFXYN 0x8 x y 0x5
  | .shr x y => wordFXYN 0x8 x y 0x6
  | .subn x y => wordFXYN 0x8 x y 0x7
  | .shl x y => wordFXYN 0x8 x y 0xE
  | .sneReg x y => wordFXYN 0x9 x y 0x0
  | .ldI nnn => wordFNNN 0xA nnn
  | .jpV0 nnn => wordFNNN 0xB nnn
  | .rnd x nn => wordFXNN 0xC x nn
  | .drw x y n => wordFXYN 0xD x y n
  | .skp x => wordFXNN 0xE x 0x9E
  | .sknp x => wordFXNN 0xE x 0xA1
  | .ldVDt x => wordFXNN 0xF x 0x07
  | .ldVK x => wordFXNN 0xF x 0x0A
  | .ldDtV x => wordFXNN 0xF x 0x15
  | .ldStV x => wordFXNN 0xF x 0x18
  | .addI x => wordFXNN 0xF x 0x1E
  | .ldF x => wordFXNN 0xF x 0x29
  | .ldB x => wordFXNN 0xF x 0x33
  | .ldMemV x => wordFXNN 0xF x 0x55
  | .ldVMem x => wordFXNN 0xF x 0x65

/-- The bytes of an instruction, in the order they lie in memory. -/
def encodeBytes (i : Instr) : List Byte := [highByte (encode i), lowByte (encode i)]

/-! ## The host's numbering of instruction bits -/

/-- The instruction word whose bits the opcode table numbers as `w`: bit 0 is the word's least significant bit, and bits at
or above `nbits` are 0. (Every row of the table has 16 bits.) -/
def tableWord (nbits w : Nat) : Word := BitVec.ofNat 16 (w % 2 ^ nbits)

/-- What the decoder reads from the instruction numbered `w`, its two bytes laid out as the core stores them (high byte
first), with the default `CFG_STRICT_DECODE`. -/
def decodeTableWord (nbits w : Nat) : Option Instr :=
  let word := tableWord nbits w
  match decodeBytes Config.default.strictDecode [highByte word, lowByte word] with
  | .ok (i, _) => some i
  | .error _ => none

end Sys2Proof
end

