-- ==== Sys2Proof/Machine/State.lean ====
section
/-! DEFINITION. The state of the core (10_state.md R20), its errors (60_exceptions.md R270, R271) and its reset value
(10_state.md R40). -/

namespace Sys2Proof.Machine

/-- What an OutOfBounds error was doing (R271). -/
inductive Access where
  | fetch
  | read
  | write
  | reservedWrite
  deriving DecidableEq, Repr

/-- The five kinds of error with the fields of their records (60_exceptions.md R270, R271). A step that raises one of the
first four takes it: the next state holds it in `fault` and is otherwise the old one (R272). `step` answers it as its
outcome only on a core that is already halted (R273). Safe: the spec itself has the core stop here. -/
inductive Fault where
  /-- Code 1. Raised by the fetch (R57) and by Dxyn, Fx33, Fx55, Fx65; `addr` is the lowest address that failed. Safe. -/
  | outOfBounds (access : Access) (addr : Nat) (pc : Word)
  /-- Code 2. Raised by decode for a word that matches no operation (R87). Safe. -/
  | unknownOpcode (word : Word) (pc : Word)
  /-- Code 3. Raised by 2nnn with 16 frames pushed (R112). Safe. -/
  | stackOverflow (pc : Word)
  /-- Code 4. Raised by 00EE with no frame pushed (R110). Safe. -/
  | stackUnderflow (pc : Word)
  /-- Code 5. Answered by `loadProgram` alone, which then changes no state (R278, R314); never stored in `fault`. Safe. -/
  | imageTooLarge (length : Nat)
  deriving DecidableEq, Repr

/-- Why the model has no meaning for an instruction. -/
inductive Refusal where
  /-- An arm of `exec` that has no meaning yet; no arm is left so, and no meaning answers it. Safe. -/
  | notModelled (mnemonic : String)
  deriving DecidableEq, Repr

/-- Memory, as the list of the bytes that differ from what reset leaves (20_memory.md R50). -/
abbrev Memory := List Host.Cell

/-- The display, 32 rows of 64 one-bit cells: bit `px` of row `py` is cell `px + 64 * py` (R32, 43_display.md R210). -/
abbrev Display := Vector (BitVec 64) 32

/-- R20, field by field; `cfg` and `draws` are the model's own. -/
structure State where
  /-- V0 to VF (R21, R22). -/
  v : Vector Byte 16
  /-- The address register `I` (R24). -/
  i : Word
  /-- The address of the instruction being executed (R25). -/
  pc : Word
  /-- The call stack, a store of its own (R27). -/
  stack : Vector Word 16
  /-- How many frames are pushed, 0 to 16 (R28). -/
  sp : Fin 17
  /-- The delay timer `DT` (R30). -/
  dt : Byte
  /-- The sound timer `ST` (R31). -/
  st : Byte
  /-- The 4096 bytes of memory (R50). -/
  mem : Memory
  /-- The display cells (R32). -/
  disp : Display
  /-- The redraw-requested flag (R33). -/
  redraw : Bool
  /-- The key flags, true when pressed (R34). -/
  key : Vector Bool 16
  /-- The fault latch; the core is halted while it holds a record (R35). -/
  fault : Option Fault
  /-- The model's own: how many random bytes have been drawn (log entry 4). -/
  draws : Nat
  /-- The model's own: the configuration parameters of R7, which no step changes (log entry 1). -/
  cfg : Config
  deriving DecidableEq, Repr

/-- The state after reset under the configuration `c` (R40, 70_reset_and_hazards.md R310), with `k` random bytes already
drawn: reset restarts no generator. -/
def State.resetWith (c : Config) (k : Nat) : State where
  v := Vector.replicate 16 0
  i := 0
  pc := 0x200
  stack := Vector.replicate 16 0
  sp := 0
  dt := 0
  st := 0
  mem := []
  disp := Vector.replicate 32 0
  redraw := false
  key := Vector.replicate 16 false
  fault := none
  draws := k
  cfg := c

/-- The state after reset, under the default configuration, before any draw. -/
def State.reset : State := State.resetWith Config.default 0

/-- What a meaning answers. -/
abbrev Result := Host.Outcome State Fault Refusal

end Sys2Proof.Machine
end

