-- ==== Sys2Proof/Machine/Ops.lean ====
section
/-! DEFINITION. The named operations over the state: memory, registers, the program counter, the call stack, the display,
the error latch, the instruction cycle's own parts (fetch, timer update, end of a step). -/

namespace Sys2Proof.Machine

/-! ## Memory (20_memory.md) -/

/-- What an address reads as when memory lists nothing there: what reset leaves, the `FONT` bytes at 0x000-0x04F and 0
above (R51, R52, R40). -/
def Memory.unlisted (font : Font) (a : Nat) : Byte := if h : a < 80 then font[a] else 0

/-- The byte at an address. -/
def Memory.read (font : Font) : Memory → Nat → Byte
  | [], a => Memory.unlisted font a
  | (k, c) :: m, a => if k = a then c else Memory.read font m a

/-- The cell that holds `b` at `a`, if one is needed. -/
def Memory.cell (font : Font) (a : Nat) (b : Byte) : Memory := if b = Memory.unlisted font a then [] else [(a, b)]

/-- Store a byte, keeping the list in its canonical form. -/
def Memory.write (font : Font) : Memory → Nat → Byte → Memory
  | [], a, b => Memory.cell font a b
  | (k, c) :: m, a, b =>
    if a < k then Memory.cell font a b ++ (k, c) :: m
    else if a = k then Memory.cell font a b ++ m
    else (k, c) :: Memory.write font m a b

/-- The canonical form: addresses strictly rising, each inside the 4096 bytes, and no entry equal to what the address reads
as unlisted. Two memories of this form that read alike are equal. -/
abbrev Memory.wf (font : Font) (m : Memory) : Prop :=
  m.Pairwise (fun p q => p.1 < q.1) ∧ ∀ c ∈ m, c.1 < memSize ∧ c.2 ≠ Memory.unlisted font c.1

/-- The byte at an address of the state's memory, no check made. -/
def State.readByte (s : State) (a : Nat) : Byte := Memory.read s.cfg.font s.mem a

/-- Store a byte into the state's memory, no check made. -/
def State.writeByte (s : State) (a : Nat) (b : Byte) : State := { s with mem := Memory.write s.cfg.font s.mem a b }

/-- The `n` bytes from `base` up. -/
def State.readBytes (s : State) (base n : Nat) : List Byte := (List.range n).map fun k => s.readByte (base + k)

/-- Store bytes at `base` and up, in order. -/
def State.writeBytes : State → Nat → List Byte → State
  | s, _, [] => s
  | s, base, b :: bs => (s.writeByte base b).writeBytes (base + 1) bs

/-! ## Registers, `I`, `pc` (10_state.md R21-R26) -/

/-- Read V[x]. -/
def State.reg (s : State) (x : Nibble) : Byte := s.v[x.toNat]'x.isLt

/-- Write V[x]. -/
def State.setReg (s : State) (x : Nibble) (b : Byte) : State := { s with v := s.v.set x.toNat b x.isLt }

/-- Write V0, V1, ... from a list of at most 16 bytes, starting at register number `k`. -/
def State.setRegs : State → Nat → List Byte → State
  | s, _, [] => s
  | s, k, b :: bs => (s.setReg (BitVec.ofNat 4 k) b).setRegs (k + 1) bs

/-- V0 to V[x], V0 first. -/
def State.regsUpTo (s : State) (x : Nibble) : List Byte := (List.range (x.toNat + 1)).map fun k => s.reg (BitVec.ofNat 4 k)

/-- Write `I`. -/
def State.setI (s : State) (a : Word) : State := { s with i := a }

/-- Write `pc`. -/
def State.setPc (s : State) (a : Word) : State := { s with pc := a }

/-- `pc <- pc + 2`, the last action of most instructions (30_encoding.md R93); modulo 2^16 (R25). -/
def State.advance (s : State) : State := s.setPc (s.pc + 2)

/-- `pc <- pc + 4` when `cond` holds, else `pc <- pc + 2` (40_control_flow.md R113, R118). -/
def State.skipIf (s : State) (cond : Bool) : State := s.setPc (if cond then s.pc + 4 else s.pc + 2)

/-! ## The call stack (R27-R29) -/

/-- `stack[sp] <- a; sp <- sp + 1`; for `sp` < 16. -/
def State.push (s : State) (a : Word) (h : s.sp.val < 16) : State :=
  { s with stack := s.stack.set s.sp.val a h, sp := ⟨s.sp.val + 1, by omega⟩ }

/-- `stack[sp - 1]`, the frame that a pop reads; for `sp` > 0. -/
def State.top (s : State) (_h : s.sp.val ≠ 0) : Word := s.stack[s.sp.val - 1]'(by omega)

/-- `sp <- sp - 1`. The slot keeps its value (R29). -/
def State.pop (s : State) : State := { s with sp := ⟨s.sp.val - 1, by omega⟩ }

/-! ## Timers, keys, random bytes (R30, R31, R34) -/

/-- Write `DT`. -/
def State.setDt (s : State) (b : Byte) : State := { s with dt := b }

/-- Write `ST`. -/
def State.setSt (s : State) (b : Byte) : State := { s with st := b }

/-- Key flag `k`. -/
def State.keyFlag (s : State) (k : Nibble) : Bool := s.key[k.toNat]'k.isLt

/-- The next byte of `RNG` (41_alu.md R153, D15): a free value. -/
def State.nextRandom (s : State) : Byte := Config.rng s.draws

/-- A byte of `RNG` has been drawn. -/
def State.countDraw (s : State) : State := { s with draws := s.draws + 1 }

/-- A timer one step on: it stops at 0 (60_exceptions.md R281). -/
def tick (t : Byte) : Byte := if t > 0 then t - 1 else t

/-- R281: the timer update, once at the end of a step that raised no error. -/
def State.timerUpdate (s : State) : State := { s with dt := tick s.dt, st := tick s.st }

/-! ## The display (43_display.md R210, R215) -/

/-- Cell `(px, py)`. -/
def Display.cell (d : Display) (px : Fin 64) (py : Fin 32) : Bool := (d[py.val]).getLsbD px.val

/-- Cell number `k`, which is `px + 64 * py`. -/
def Display.flat (d : Display) (k : Fin 2048) : Bool :=
  Display.cell d ⟨k.val % 64, by omega⟩ ⟨k.val / 64, by omega⟩

/-- `disp[k] <- disp[k] ^ 1` for the cell `(px, py)`. -/
def Display.toggle (d : Display) (px : Fin 64) (py : Fin 32) : Display :=
  d.set py.val (d[py.val] ^^^ BitVec.twoPow 64 px.val)

/-- Every cell 0. -/
def Display.clear : Display := Vector.replicate 32 0

/-- Write the display and request a redraw (R215). -/
def State.redrawWith (s : State) (d : Display) : State := { s with disp := d, redraw := true }

/-! ## Errors (60_exceptions.md) -/

/-- The numeric code of an error kind (R270). -/
def Fault.code : Fault → Nat
  | .outOfBounds _ _ _ => 1
  | .unknownOpcode _ _ => 2
  | .stackOverflow _ => 3
  | .stackUnderflow _ => 4
  | .imageTooLarge _ => 5

/-- TAKING AN ERROR (R272): the state from before the step, with the record in the fault latch and nothing else changed. It
is given the state the step began with, so that everything the step did is discarded. -/
def raise (e : Fault) (s : State) : Result := .next { s with fault := some e }

/-- What `MemRead` checks of an address (20_memory.md R59). -/
def State.checkRead (s : State) (a : Nat) : Option Fault :=
  if a > 0xFFF then some (.outOfBounds .read a s.pc) else none

/-- What `MemWrite` checks of an address (20_memory.md R60). -/
def State.checkWrite (s : State) (a : Nat) : Option Fault :=
  if a > 0xFFF then some (.outOfBounds .write a s.pc)
  else if a < progBase ∧ s.cfg.reservedWrite = .fault then some (.outOfBounds .reservedWrite a s.pc)
  else none

/-- The error of the lowest of the `n` addresses from `base` up that fails the check (R61). -/
def firstFailure (check : Nat → Option Fault) (base n : Nat) : Option Fault :=
  (List.range n).findSome? fun k => check (base + k)

/-- Check `n` addresses from `base` up as `MemRead` would, before anything else; then go on with the bytes there (R61). -/
def State.withLoad (s : State) (base n : Nat) (k : List Byte → State) : Result :=
  match firstFailure s.checkRead base n with
  | some e => raise e s
  | none => .next (k (s.readBytes base n))

/-- Check the addresses of `bytes` from `base` up as `MemWrite` would, before the first write; then store them and go on
(R61). -/
def State.withStore (s : State) (base : Nat) (bytes : List Byte) (k : State → State) : Result :=
  match firstFailure s.checkWrite base bytes.length with
  | some e => raise e s
  | none => .next (k (s.writeBytes base bytes))

/-! ## The parts of `step()` (30_encoding.md R92) -/

/-- R57: the word at `pc`, high byte first, or OutOfBounds(FETCH). -/
def fetch (s : State) : Except Fault Word :=
  if s.pc.toNat + 1 > 0xFFF then .error (.outOfBounds .fetch s.pc.toNat s.pc)
  else .ok (wordOfBytes (s.readByte s.pc.toNat) (s.readByte (s.pc.toNat + 1)))

/-- R57, R85: fetch and decode; the error of the first of the two that fails (R275). -/
def fetchDecode (s : State) : Except Fault Instr :=
  match fetch s with
  | .error e => .error e
  | .ok w =>
    match decode s.cfg.strictDecode w with
    | .error _ => .error (.unknownOpcode w s.pc)
    | .ok i => .ok i

/-- The end of a step (R92, R281, R282): the timer update, unless the instruction raised an error. -/
def endStep : Result → Result
  | .next t => .next (if t.fault = none then t.timerUpdate else t)
  | r => r

/-- The state with a word stored where the next fetch reads it, high byte first. -/
def State.placeWord (s : State) (w : Word) : State :=
  (s.writeByte s.pc.toNat (highByte w)).writeByte (s.pc.toNat + 1) (lowByte w)

end Sys2Proof.Machine
end

