-- ==== Sys2Proof/Machine/Operands.lean ====
section
/-! DEFINITION. The operand forms (30_encoding.md R82, R83; 42_index_memory.md R180; 44_keys_timers.md R240). A register
operand V[x] is `State.reg`; the forms that need more than that stand here. -/

namespace Sys2Proof.Machine

/-- `zext_16(nnn)` (R82). -/
def addrOperand (nnn : Addr) : Word := nnn.setWidth 16

/-- `zext_16` of a register (R9). -/
def zext16 (b : Byte) : Word := b.setWidth 16

/-- The effective address of a data access is `I + k`, unbounded (R180): this is the base, `I`. -/
def State.dataBase (s : State) : Nat := s.i.toNat

/-- The register that 8xy6 and 8xyE shift (41_alu.md R150, D5). -/
def State.shiftOperand (s : State) (x y : Nibble) : Byte :=
  match s.cfg.shiftSource with
  | .vx => s.reg x
  | .vy => s.reg y

/-- `KeyPressed(v)` (R240, D14). -/
def State.keyPressed (s : State) (b : Byte) : Bool :=
  if b.toNat ≤ 0xF then s.keyFlag (b.setWidth 4)
  else
    match s.cfg.keyIndexHigh with
    | .notPressed => false
    | .lowNibble => s.keyFlag (b.setWidth 4)

/-- The 16 key numbers, lowest first. -/
def keyNumbers : List Nibble := (List.range 16).map (BitVec.ofNat 4)

/-- `min { k | key[k] = 1 }`, if some key is pressed (R244). -/
def State.lowestKey (s : State) : Option Nibble := keyNumbers.find? s.keyFlag

/-- The decimal digits of a byte, hundreds first (42_index_memory.md R184). -/
def bcdDigits (b : Byte) : List Byte := [b / 100, b / 10 % 10, b % 10]

end Sys2Proof.Machine
end

