-- ==== Sys2Proof/Machine/Flags.lean ====
section
/-! DEFINITION. The flag computations: VF is the only flag (10_state.md R22, R36; 41_alu.md R140, R141). -/

namespace Sys2Proof.Machine

/-- A Boolean is 1 for true and 0 for false when it is written to a register (00_scope.md R9). -/
def flagByte (b : Bool) : Byte := if b then 1 else 0

/-- The carry of an addition: the true sum exceeds 255 (R140, R148). -/
def carry (a b : Byte) : Bool := a.toNat + b.toNat > 255

/-- No borrow in `a - b`: `a >= b` (R140, R149; decision D4). -/
def noBorrow (a b : Byte) : Bool := a.toNat ≥ b.toNat

/-- The bit that a right shift by one moves out (R150). -/
def bitOutRight (a : Byte) : Bool := a.getLsbD 0

/-- The bit that a left shift by one moves out (R152). -/
def bitOutLeft (a : Byte) : Bool := a.getLsbD 7

/-- Write VF as a flag. -/
def State.setFlag (s : State) (b : Bool) : State := s.setReg flagReg (flagByte b)

/-- R141: the result to V[x] first, the flag to VF last, so that VF ends with the flag when x = F. Both are computed by the
caller from latched operands. -/
def State.setResultAndFlag (s : State) (x : Nibble) (result : Byte) (flag : Bool) : State :=
  (s.setReg x result).setFlag flag

end Sys2Proof.Machine
end

