-- ==== Sys2Proof/Machine/Alu.lean ====
section
/-! DEFINITION. Register loads and the ALU (41_alu.md). -/

namespace Sys2Proof.Machine

/-- R142 `LD Vx, byte`. -/
def execLdImm (x : Nibble) (nn : Byte) (s : State) : Result := .next (s.setReg x nn).advance

/-- R143 `ADD Vx, byte`: no flag. -/
def execAddImm (x : Nibble) (nn : Byte) (s : State) : Result := .next (s.setReg x (s.reg x + nn)).advance

/-- R144 `LD Vx, Vy`. -/
def execLdReg (x y : Nibble) (s : State) : Result := .next (s.setReg x (s.reg y)).advance

/-- R145 `OR Vx, Vy`: VF unchanged unless x = F (D6). -/
def execOr (x y : Nibble) (s : State) : Result := .next (s.setReg x (s.reg x ||| s.reg y)).advance

/-- R146 `AND Vx, Vy`: VF unchanged unless x = F (D6). -/
def execAnd (x y : Nibble) (s : State) : Result := .next (s.setReg x (s.reg x &&& s.reg y)).advance

/-- R147 `XOR Vx, Vy`: VF unchanged unless x = F (D6). -/
def execXor (x y : Nibble) (s : State) : Result := .next (s.setReg x (s.reg x ^^^ s.reg y)).advance

/-- R148 `ADD Vx, Vy`: VF = carry. -/
def execAddReg (x y : Nibble) (s : State) : Result :=
  let a := s.reg x
  let b := s.reg y
  .next (s.setResultAndFlag x (a + b) (carry a b)).advance

/-- R149 `SUB Vx, Vy`: V[x] - V[y], VF = no borrow. -/
def execSub (x y : Nibble) (s : State) : Result :=
  let a := s.reg x
  let b := s.reg y
  .next (s.setResultAndFlag x (a - b) (noBorrow a b)).advance

/-- R150 `SHR Vx, Vy`: the source register is `CFG_SHIFT_SOURCE`'s (D5), VF = the bit shifted out. -/
def execShr (x y : Nibble) (s : State) : Result :=
  let a := s.shiftOperand x y
  .next (s.setResultAndFlag x (a >>> 1) (bitOutRight a)).advance

/-- R151 `SUBN Vx, Vy`: V[y] - V[x], VF = no borrow. -/
def execSubn (x y : Nibble) (s : State) : Result :=
  let a := s.reg x
  let b := s.reg y
  .next (s.setResultAndFlag x (b - a) (noBorrow b a)).advance

/-- R152 `SHL Vx, Vy`: the source register is `CFG_SHIFT_SOURCE`'s (D5), VF = the bit shifted out. -/
def execShl (x y : Nibble) (s : State) : Result :=
  let a := s.shiftOperand x y
  .next (s.setResultAndFlag x (a <<< 1) (bitOutLeft a)).advance

/-- R153 `RND Vx, byte`: a fresh draw of `RNG`, a free value (D15), ANDed with `nn`. -/
def execRnd (x : Nibble) (nn : Byte) (s : State) : Result :=
  .next (s.countDraw.setReg x (s.nextRandom &&& nn)).advance

end Sys2Proof.Machine
end

