-- ==== Sys2Proof/Machine/ControlFlow.lean ====
section
/-! DEFINITION. Control transfer and skips (40_control_flow.md). -/

namespace Sys2Proof.Machine

/-- R110 `RET`. -/
def execRet (s : State) : Result :=
  if h : s.sp.val = 0 then raise (.stackUnderflow s.pc) s
  else .next (s.pop.setPc (s.top h + 2))

/-- R111 `JP addr`. -/
def execJp (nnn : Addr) (s : State) : Result := .next (s.setPc (addrOperand nnn))

/-- R112 `CALL addr`: the frame pushed is the address of the CALL itself. -/
def execCall (nnn : Addr) (s : State) : Result :=
  if h : s.sp.val < 16 then .next ((s.push s.pc h).setPc (addrOperand nnn))
  else raise (.stackOverflow s.pc) s

/-- R113 `SE Vx, byte`. -/
def execSeImm (x : Nibble) (nn : Byte) (s : State) : Result := .next (s.skipIf (s.reg x == nn))

/-- R114 `SNE Vx, byte`. -/
def execSneImm (x : Nibble) (nn : Byte) (s : State) : Result := .next (s.skipIf (s.reg x != nn))

/-- R115 `SE Vx, Vy`. -/
def execSeReg (x y : Nibble) (s : State) : Result := .next (s.skipIf (s.reg x == s.reg y))

/-- R116 `SNE Vx, Vy`. -/
def execSneReg (x y : Nibble) (s : State) : Result := .next (s.skipIf (s.reg x != s.reg y))

/-- R117 `JP V0, addr`: always register 0; the sum is not reduced modulo 4096. -/
def execJpV0 (nnn : Addr) (s : State) : Result := .next (s.setPc (zext16 (s.reg 0) + addrOperand nnn))

end Sys2Proof.Machine
end

