-- ==== Sys2Proof/Machine/Display.lean ====
section
/-! DEFINITION. The display buffer and the sprite blit (43_display.md). -/

namespace Sys2Proof.Machine

/-- R211 `CLS`. -/
def execCls (s : State) : Result := .next (s.redrawWith Display.clear).advance

/-- A sprite scan under way: the display so far, and whether a set source bit has met a set cell. -/
structure Blit where
  disp : Display
  hit : Bool
  deriving DecidableEq, Repr

/-- A column, wrapped onto the display (R214). -/
def wrapX (a : Nat) : Fin 64 := ⟨a % 64, by omega⟩

/-- A row, wrapped onto the display (R214). -/
def wrapY (a : Nat) : Fin 32 := ⟨a % 32, by omega⟩

/-- One set source bit at `(px, py)`: record a collision, then toggle the cell (R212). -/
def blitPixel (b : Blit) (px : Fin 64) (py : Fin 32) : Blit :=
  { disp := Display.toggle b.disp px py, hit := b.hit || Display.cell b.disp px py }

/-- One sprite row at row `y` and origin column `ox`: columns left to right, most significant bit first, each column
wrapped modulo 64 and the row modulo 32 (R212, R214). -/
def blitRow (b : Blit) (ox y : Nat) (row : Byte) : Blit :=
  (List.range 8).foldl
    (fun acc c => if row.getLsbD (7 - c) then blitPixel acc (wrapX (ox + c)) (wrapY y) else acc) b

/-- The sprite's rows, top to bottom, from row `y` down. -/
def blitRows : Blit → Nat → Nat → List Byte → Blit
  | b, _, _, [] => b
  | b, ox, y, row :: rows => blitRows (blitRow b ox y row) ox (y + 1) rows

/-- R212 `DRW Vx, Vy, nibble`: the origin is latched before VF is cleared; the n bytes are checked before any effect; VF is
0 before the scan and 1 after it if a collision was recorded; n = 0 draws nothing and reads nothing (R213). -/
def execDrw (x y n : Nibble) (s : State) : Result :=
  s.withLoad s.dataBase n.toNat fun rows =>
    let b := blitRows ⟨s.disp, false⟩ (s.reg x).toNat (s.reg y).toNat rows
    ((s.setFlag b.hit).redrawWith b.disp).advance

end Sys2Proof.Machine
end

