-- ==== Sys2Proof/Machine/IndexMemory.lean ====
section
/-! DEFINITION. The address register and the memory-indexed operations (42_index_memory.md). -/

namespace Sys2Proof.Machine

/-- R181 `LD I, addr`. -/
def execLdI (nnn : Addr) (s : State) : Result := .next (s.setI (addrOperand nnn)).advance

/-- R182 `ADD I, Vx`: modulo 2^16, no flag (D11). -/
def execAddI (x : Nibble) (s : State) : Result := .next (s.setI (s.i + zext16 (s.reg x))).advance

/-- R183 `LD F, Vx`: 5 * V[x], for every V[x]. -/
def execLdF (x : Nibble) (s : State) : Result := .next (s.setI (zext16 (s.reg x) * 5)).advance

/-- R184 `LD B, Vx`: the decimal digits to I, I+1, I+2. -/
def execLdB (x : Nibble) (s : State) : Result := s.withStore s.dataBase (bcdDigits (s.reg x)) State.advance

/-- R185 `LD [I], Vx`: V0..V[x] to I..I+x, then I + x + 1 modulo 2^16 (D11). -/
def execLdMemV (x : Nibble) (s : State) : Result :=
  s.withStore s.dataBase (s.regsUpTo x) fun t => (t.setI (t.i + x.setWidth 16 + 1)).advance

/-- R186 `LD Vx, [I]`: I..I+x to V0..V[x], then I + x + 1 modulo 2^16 (D11). -/
def execLdVMem (x : Nibble) (s : State) : Result :=
  s.withLoad s.dataBase (x.toNat + 1) fun bytes =>
    let t := s.setRegs 0 bytes
    (t.setI (t.i + x.setWidth 16 + 1)).advance

end Sys2Proof.Machine
end

