-- ==== Sys2Proof/Machine/KeysTimers.lean ====
section
/-! DEFINITION. Key-state reads and timer access (44_keys_timers.md). -/

namespace Sys2Proof.Machine

/-- R241 `SKP Vx`. -/
def execSkp (x : Nibble) (s : State) : Result := .next (s.skipIf (s.keyPressed (s.reg x)))

/-- R242 `SKNP Vx`. -/
def execSknp (x : Nibble) (s : State) : Result := .next (s.skipIf (!s.keyPressed (s.reg x)))

/-- R243 `LD Vx, DT`: `DT` as it stands before this step's timer update. -/
def execLdVDt (x : Nibble) (s : State) : Result := .next (s.setReg x s.dt).advance

/-- R244 `LD Vx, K`: the lowest pressed key; with none pressed `pc` stays, so that the same instruction runs again in the
next step (D3). -/
def execLdVK (x : Nibble) (s : State) : Result :=
  match s.lowestKey with
  | some k => .next (s.setReg x (k.setWidth 8)).advance
  | none => .next s

/-- R245 `LD DT, Vx`. -/
def execLdDtV (x : Nibble) (s : State) : Result := .next (s.setDt (s.reg x)).advance

/-- R246 `LD ST, Vx`. -/
def execLdStV (x : Nibble) (s : State) : Result := .next (s.setSt (s.reg x)).advance

end Sys2Proof.Machine
end

