-- ==== Sys2Proof/Machine/Step.lean ====
section
/-! DEFINITION. One instruction cycle (30_encoding.md R92). -/

namespace Sys2Proof.Machine

/-- R92 `step()`. A halted core answers the stored error and changes nothing (60_exceptions.md R273). An error of the fetch
or of decode is taken as R272 says. Otherwise the instruction runs, and the timers are updated unless it raised an error. -/
def step (s : State) : Host.Outcome State Fault Refusal :=
  match s.fault with
  | some e => .fault e
  | none =>
    match fetchDecode s with
    | .error e => raise e s
    | .ok i => endStep (exec i s)

/-- `s` with the instruction that opcode_table.json numbers as `w` stored at `pc`, where the next step fetches. Nothing but
those two bytes changes. -/
def State.withFetchWord (s : State) (nbits w : Nat) : State := s.placeWord (tableWord nbits w)

end Sys2Proof.Machine
end

