-- ==== Sys2Proof/Machine/Trace.lean ====
section
/-! DEFINITION. The optional diagnostic trace (60_exceptions.md R290): a pure function beside the step, no state. -/

namespace Sys2Proof.Machine

/-- The record of one executed instruction. -/
structure TraceRecord where
  /-- `pc` before the step. -/
  address : Word
  /-- The opcode word. -/
  word : Word
  /-- The mnemonic of R90. -/
  mnemonic : String
  /-- The operation with its operand fields. -/
  operation : Instr
  deriving DecidableEq, Repr

/-- The operation that the next step runs without an error, if it does. -/
def State.runsNext (s : State) : Option Instr :=
  if s.fault ≠ none then none
  else
    match fetchDecode s with
    | .error _ => none
    | .ok i =>
      match exec i s with
      | .next t => if t.fault = none then some i else none
      | _ => none

/-- R290: the record that the next step emits; none for a step that raises an error. -/
def State.trace (s : State) : Option TraceRecord :=
  match s.runsNext, fetch s with
  | some i, .ok w => some ⟨s.pc, w, i.mnemonic, i⟩
  | _, _ => none

end Sys2Proof.Machine
end

