-- ==== Sys2Proof/Machine/HostActions.lean ====
section
/-! DEFINITION. What the host may do between steps (60_exceptions.md R286-R289; 70_reset_and_hazards.md R310-R317). -/

namespace Sys2Proof.Machine

/-- R313, R314 `loadProgram(bytes)`: the image to 0x200 and up, and nothing else; ImageTooLarge, and no change, when it is
longer than 3584 bytes. It may be called between any two steps (R317), and it sets no fault latch (R278). -/
def loadProgram (bytes : List Byte) (s : State) : Result :=
  if bytes.length > maxImage then .fault (.imageTooLarge bytes.length)
  else .next (s.writeBytes progBase bytes)

/-- R288: the host writes one key flag. -/
def State.writeKey (s : State) (k : Nibble) (pressed : Bool) : State :=
  { s with key := s.key.set k.toNat pressed k.isLt }

/-- R287: the host clears the redraw flag. -/
def State.clearRedraw (s : State) : State := { s with redraw := false }

/-- R310: the host resets the core; the configuration is the implementation's, and the random draws go on. -/
def State.hostReset (s : State) : State := State.resetWith s.cfg s.draws

/-- R287: the host reads cell `k` of the display. -/
def State.hostCell (s : State) (k : Fin 2048) : Bool := Display.flat s.disp k

/-- R289: the host reads the delay timer and the sound timer. -/
def State.hostTimers (s : State) : Byte × Byte := (s.dt, s.st)

/-- The actions of R286 that can change the state; its reads (items 3, 4 and 6) change nothing. -/
inductive HostAction where
  | step
  | writeKey (k : Nibble) (pressed : Bool)
  | clearRedraw
  | loadProgram (bytes : List Byte)
  | reset
  deriving DecidableEq, Repr

/-- One action of the host. -/
def hostAct (a : HostAction) (s : State) : Result :=
  match a with
  | .step => step s
  | .writeKey k pressed => .next (s.writeKey k pressed)
  | .clearRedraw => .next s.clearRedraw
  | .loadProgram bytes => loadProgram bytes s
  | .reset => .next s.hostReset

end Sys2Proof.Machine
end

