-- ==== Sys2Proof/Safety.lean ====
section
/-! DEFINITION. The terms that claims are stated in: what stays unchanged, which states are well kept, what an error record
says of the state that holds it, and what a safe run is. -/

namespace Sys2Proof.Machine

/-! ## Frames -/

/-- The pieces of the state (10_state.md R20), and the model's own two. -/
inductive Part where
  | v
  | i
  | pc
  | stack
  | sp
  | dt
  | st
  | mem
  | disp
  | redraw
  | key
  | fault
  | draws
  | cfg
  deriving DecidableEq, Repr

/-- The piece is the same in both states. Memory is compared byte by byte, at every address; the registers one by one. -/
def Part.Same : Part → State → State → Prop
  | .v, s, t => ∀ r, t.reg r = s.reg r
  | .i, s, t => t.i = s.i
  | .pc, s, t => t.pc = s.pc
  | .stack, s, t => t.stack = s.stack
  | .sp, s, t => t.sp = s.sp
  | .dt, s, t => t.dt = s.dt
  | .st, s, t => t.st = s.st
  | .mem, s, t => ∀ a, t.readByte a = s.readByte a
  | .disp, s, t => t.disp = s.disp
  | .redraw, s, t => t.redraw = s.redraw
  | .key, s, t => t.key = s.key
  | .fault, s, t => t.fault = s.fault
  | .draws, s, t => t.draws = s.draws
  | .cfg, s, t => t.cfg = s.cfg

end Sys2Proof.Machine

namespace Sys2Proof

open Sys2Proof.Machine

/-- The general registers an instruction may write: the column 'writes' of 10_state.md R23. -/
def Instr.regsWritten : Instr → List Nibble
  | .ldImm x _ | .addImm x _ | .ldReg x _ | .or x _ | .and x _ | .xor x _ | .rnd x _ | .ldVDt x | .ldVK x => [x]
  | .addReg x _ | .sub x _ | .shr x _ | .subn x _ | .shl x _ => [x, flagReg]
  | .drw _ _ _ => [flagReg]
  | .ldVMem x => (List.range (x.toNat + 1)).map (BitVec.ofNat 4)
  | .cls | .ret | .jp _ | .call _ | .seImm _ _ | .sneImm _ _ | .seReg _ _ | .sneReg _ _ | .ldI _ | .jpV0 _ | .skp _
  | .sknp _ | .ldDtV _ | .ldStV _ | .addI _ | .ldF _ | .ldB _ | .ldMemV _ => []

/-- The pieces of the state an instruction may write, before the timer update: the writers that 10_state.md R22 to R37 and
20_memory.md R63 name. `fault` stands only where the rule of the instruction names an error of its own (60_exceptions.md
R270, R275). -/
def Instr.partsWritten : Instr → List Part
  | .cls => [.pc, .disp, .redraw]
  | .ret => [.pc, .sp, .fault]
  | .call _ => [.pc, .stack, .sp, .fault]
  | .jp _ | .jpV0 _ | .seImm _ _ | .sneImm _ _ | .seReg _ _ | .sneReg _ _ | .skp _ | .sknp _ => [.pc]
  | .ldImm _ _ | .addImm _ _ | .ldReg _ _ | .or _ _ | .and _ _ | .xor _ _ | .addReg _ _ | .sub _ _ | .shr _ _
  | .subn _ _ | .shl _ _ | .ldVDt _ | .ldVK _ => [.pc, .v]
  | .rnd _ _ => [.pc, .v, .draws]
  | .ldI _ | .addI _ | .ldF _ => [.pc, .i]
  | .drw _ _ _ => [.pc, .v, .disp, .redraw, .fault]
  | .ldDtV _ => [.pc, .dt]
  | .ldStV _ => [.pc, .st]
  | .ldB _ => [.pc, .mem, .fault]
  | .ldMemV _ => [.pc, .i, .mem, .fault]
  | .ldVMem _ => [.pc, .i, .v, .fault]

/-- Fx33 and Fx55, the operations that store to memory (R63). -/
def Instr.Stores (i : Instr) : Prop := ∃ x, i = .ldB x ∨ i = .ldMemV x

/-- Dxyn and Fx65, the operations that load from memory (R63). -/
def Instr.Loads (i : Instr) : Prop := (∃ x y n, i = .drw x y n) ∨ ∃ x, i = .ldVMem x

/-- The operations whose rule sets `pc` in another way than `pc + 2` (30_encoding.md R93): the jumps, the call, the return, the
six skips and Fx0A. -/
def Instr.SetsPc : Instr → Prop
  | .ret | .jp _ | .call _ | .seImm _ _ | .sneImm _ _ | .seReg _ _ | .sneReg _ _ | .jpV0 _ | .skp _ | .sknp _ | .ldVK _ => True
  | .cls | .ldImm _ _ | .addImm _ _ | .ldReg _ _ | .or _ _ | .and _ _ | .xor _ _ | .addReg _ _ | .sub _ _ | .shr _ _
  | .subn _ _ | .shl _ _ | .ldI _ | .rnd _ _ | .drw _ _ _ | .ldVDt _ | .ldDtV _ | .ldStV _ | .addI _ | .ldF _ | .ldB _
  | .ldMemV _ | .ldVMem _ => False

/-- Ex9E, ExA1 and Fx0A, the operations that read the key flags (R34). -/
def Instr.ReadsKeys (i : Instr) : Prop := ∃ x, i = .skp x ∨ i = .sknp x ∨ i = .ldVK x

end Sys2Proof

namespace Sys2Proof.Machine

/-- Every piece is unchanged but those listed. -/
def UnchangedBut (parts : List Part) (s t : State) : Prop := ∀ p, p ∉ parts → p.Same s t

/-- Every general register is unchanged but those listed. -/
def RegsUnchangedBut (regs : List Nibble) (s t : State) : Prop := ∀ r, r ∉ regs → t.reg r = s.reg r

/-! ## The display -/

/-- `(px, py)` is where a set source bit falls: bit `7 - c` of row `r` lands at column `ox + c` mod 64 and row `oy + r` mod
32 (43_display.md R212, R214). -/
def SpriteCovers (rows : List Byte) (ox oy : Nat) (px : Fin 64) (py : Fin 32) : Prop :=
  ∃ r c : Nat, c < 8 ∧ (∃ row, rows[r]? = some row ∧ row.getLsbD (7 - c) = true) ∧
    px.val = (ox + c) % 64 ∧ py.val = (oy + r) % 32

/-! ## Well-kept states -/

/-- Memory has its canonical form, with every listed address inside the 4096 bytes (20_memory.md R50). -/
def State.MemCanonical (s : State) : Prop := Memory.wf s.cfg.font s.mem

/-- Two states that differ at most in stack slots at or above `sp` (10_state.md R29). -/
def State.SameButDeadFrames (s t : State) : Prop :=
  t = { s with stack := t.stack } ∧ ∀ k : Fin 16, k.val < s.sp.val → t.stack[k.val] = s.stack[k.val]

/-- No `pc` that a run reaches exceeds 0x10FE, and every pushed frame is the address of a fetched CALL (10_state.md R25,
40_control_flow.md R112). -/
def State.PcInRange (s : State) : Prop :=
  s.pc.toNat ≤ 0x10FE ∧ ∀ k : Fin 16, k.val < s.sp.val → (s.stack[k.val]).toNat ≤ 0xFFE

/-- The record says truly why the instruction at `pc` cannot run (60_exceptions.md R270, R271). -/
def Fault.Explains (s : State) : Fault → Prop
  | .outOfBounds .fetch a p => p = s.pc ∧ a = s.pc.toNat ∧ 0xFFF ≤ s.pc.toNat
  | .outOfBounds .read a p => p = s.pc ∧ 0xFFF < a ∧ ∃ i, fetchDecode s = .ok i ∧ i.Loads
  | .outOfBounds .write a p => p = s.pc ∧ 0xFFF < a ∧ ∃ i, fetchDecode s = .ok i ∧ i.Stores
  | .outOfBounds .reservedWrite a p => p = s.pc ∧ a < 0x200 ∧ s.cfg.reservedWrite = .fault ∧
      ∃ i, fetchDecode s = .ok i ∧ i.Stores
  | .unknownOpcode w p => p = s.pc ∧ fetch s = .ok w ∧ ∀ i, decode s.cfg.strictDecode w ≠ .ok i
  | .stackOverflow p => p = s.pc ∧ s.sp.val = 16 ∧ ∃ nnn, fetchDecode s = .ok (.call nnn)
  | .stackUnderflow p => p = s.pc ∧ s.sp.val = 0 ∧ fetchDecode s = .ok .ret
  | .imageTooLarge _ => False

/-! ## Safe runs -/

/-- A safe run of `n` steps from `s` to `t`: every step ran an instruction, and no error was taken (60_exceptions.md R292). -/
def SafeRun (n : Nat) (s t : State) : Prop := Host.Core.run Sys2Proof.core n s = .next t ∧ t.fault = none

end Sys2Proof.Machine
end

