-- ==== Sys2Proof/WellFormed.lean ====
section
/-! DEFINITION. What is well formed: an instruction word, and a program image.

The operands of an `Instr` have exact widths, so every `Instr` is well formed by its type. What can be ill formed is a
WORD, which matches no row of the opcode table (30_encoding.md R84, R87), and an IMAGE, which is too long
(70_reset_and_hazards.md R314). The table here is copied from opcode_table.json and does not use the decoder, so that the
two can be held against each other. -/

namespace Sys2Proof

/-- A row of opcode_table.json: a word matches it when its bits under the mask are the row's. -/
structure OpcodeRow where
  mnemonic : String
  pattern : Word
  mask : Word
  /-- The mask with `CFG_STRICT_DECODE` = `false` (R86); the same mask where the table gives no other. -/
  maskLenient : Word
  deriving DecidableEq, Repr

/-- Whether `w` matches the row, with `CFG_STRICT_DECODE` = `strict`. -/
def OpcodeRow.accepts (r : OpcodeRow) (strict : Bool) (w : Word) : Bool :=
  w &&& (if strict then r.mask else r.maskLenient) == r.pattern

/-- A row whose mask does not depend on `CFG_STRICT_DECODE`. -/
def opcodeRow (mnemonic : String) (pattern mask : Word) : OpcodeRow := ⟨mnemonic, pattern, mask, mask⟩

/-- Families 0 to 7. -/
def opcodeRowsLow : List OpcodeRow :=
  [ ⟨"CLS", 0x00E0, 0xFFFF, 0xF0FF⟩,
    ⟨"RET", 0x00EE, 0xFFFF, 0xF0FF⟩,
    opcodeRow "JP addr" 0x1000 0xF000,
    opcodeRow "CALL addr" 0x2000 0xF000,
    opcodeRow "SE Vx, byte" 0x3000 0xF000,
    opcodeRow "SNE Vx, byte" 0x4000 0xF000,
    ⟨"SE Vx, Vy", 0x5000, 0xF00F, 0xF000⟩,
    opcodeRow "LD Vx, byte" 0x6000 0xF000,
    opcodeRow "ADD Vx, byte" 0x7000 0xF000 ]

/-- Family 8. -/
def opcodeRowsAlu : List OpcodeRow :=
  [ opcodeRow "LD Vx, Vy" 0x8000 0xF00F,
    opcodeRow "OR Vx, Vy" 0x8001 0xF00F,
    opcodeRow "AND Vx, Vy" 0x8002 0xF00F,
    opcodeRow "XOR Vx, Vy" 0x8003 0xF00F,
    opcodeRow "ADD Vx, Vy" 0x8004 0xF00F,
    opcodeRow "SUB Vx, Vy" 0x8005 0xF00F,
    opcodeRow "SHR Vx, Vy" 0x8006 0xF00F,
    opcodeRow "SUBN Vx, Vy" 0x8007 0xF00F,
    opcodeRow "SHL Vx, Vy" 0x800E 0xF00F ]

/-- Families 9 to D. -/
def opcodeRowsHigh : List OpcodeRow :=
  [ ⟨"SNE Vx, Vy", 0x9000, 0xF00F, 0xF000⟩,
    opcodeRow "LD I, addr" 0xA000 0xF000,
    opcodeRow "JP V0, addr" 0xB000 0xF000,
    opcodeRow "RND Vx, byte" 0xC000 0xF000,
    opcodeRow "DRW Vx, Vy, nibble" 0xD000 0xF000 ]

/-- Families E and F. -/
def opcodeRowsMisc : List OpcodeRow :=
  [ opcodeRow "SKP Vx" 0xE09E 0xF0FF,
    opcodeRow "SKNP Vx" 0xE0A1 0xF0FF,
    opcodeRow "LD Vx, DT" 0xF007 0xF0FF,
    opcodeRow "LD Vx, K" 0xF00A 0xF0FF,
    opcodeRow "LD DT, Vx" 0xF015 0xF0FF,
    opcodeRow "LD ST, Vx" 0xF018 0xF0FF,
    opcodeRow "ADD I, Vx" 0xF01E 0xF0FF,
    opcodeRow "LD F, Vx" 0xF029 0xF0FF,
    opcodeRow "LD B, Vx" 0xF033 0xF0FF,
    opcodeRow "LD [I], Vx" 0xF055 0xF0FF,
    opcodeRow "LD Vx, [I]" 0xF065 0xF0FF ]

/-- The 34 rows of opcode_table.json, in its order. -/
def opcodeRows : List OpcodeRow := opcodeRowsLow ++ opcodeRowsAlu ++ opcodeRowsHigh ++ opcodeRowsMisc

/-- A word is well formed when it matches a row; every other word is illegal (R84, R87). -/
def wellFormedWord (strict : Bool) (w : Word) : Bool := opcodeRows.any (·.accepts strict w)

/-- An image is well formed when it fits the program space (R314). -/
def wellFormedImage (bytes : List Byte) : Bool := bytes.length ≤ maxImage

end Sys2Proof
end

