-- ==== Sys2Proof/Certificates/Slice0/Obligations.lean ====
section
/-! DEFINITION. The statements for the provers, from the numbered rules of spec/. `s` is any state, reached or not; where a
statement holds only of states whose memory has its canonical form it says so, and `StepKeepsMemoryCanonical` states that
every step keeps that form. The next state of an instruction (`exec`) is the one before the timer update; a whole step
(`step`) adds that update (30_encoding.md R92). -/

open Sys2Proof Sys2Proof.Machine

/-! ## Encoding (30_encoding.md) -/

/-- Decoding the word of an instruction gives the instruction, for every operand, under either value of
`CFG_STRICT_DECODE` (R80, R84, R85). The nibbles of 8xyN, 8xy7 and Fx0A are the spec's own decisions D2 and D3, which it marks
as general knowledge (log entry 11). -/
def Obligations.DecodeUndoesEncode : Prop :=
  ∀ (strict : Bool) (i : Instr), decode strict (encode i) = .ok i

/-- Under strict decode every legal word is the word of the instruction it decodes to, so that no bit of it is dropped (R80,
R85). What strict decode checks is the spec's own decision D1; the nibbles of 8xyN, 8xy7 and Fx0A are D2 and D3 (log entry
11). -/
def Obligations.EncodeUndoesStrictDecode : Prop :=
  ∀ (w : Word) (i : Instr), decode true w = .ok i → encode i = w

/-- The decoder and the table of opcode_table.json (mask and match of each row) agree on every word under either value of
`CFG_STRICT_DECODE`: a word that decodes matches one row, its own, and a word that does not decode matches none. Both
hold what the spec decides in D1, D2 and D3 (log entry 11). -/
def Obligations.DecodeAgreesWithOpcodeTable : Prop :=
  ∀ (strict : Bool) (w : Word),
    (opcodeRows.filter (·.accepts strict w)).map (·.mnemonic) =
      match decode strict w with
      | .ok i => [i.mnemonic]
      | .error _ => []

/-- The illegal words are those that R87 lists by family, and each is rejected as itself. The list rests on the spec's own
decisions D1, D2 and D3 (log entry 11). -/
def Obligations.IllegalWordsAreThoseListed : Prop :=
  ∀ (strict : Bool) (w : Word),
    let f := w.toNat / 0x1000
    let nn := w.toNat % 0x100
    let n := w.toNat % 0x10
    decode strict w = .error (.unknownOpcode w) ↔
      (f = 0x0 ∧ strict = true ∧ w.toNat ≠ 0x00E0 ∧ w.toNat ≠ 0x00EE) ∨
      (f = 0x0 ∧ strict = false ∧ nn ≠ 0xE0 ∧ nn ≠ 0xEE) ∨
      ((f = 0x5 ∨ f = 0x9) ∧ strict = true ∧ n ≠ 0) ∨
      (f = 0x8 ∧ n ∈ [0x8, 0x9, 0xA, 0xB, 0xC, 0xD, 0xF]) ∨
      (f = 0xE ∧ nn ∉ [0x9E, 0xA1]) ∨
      (f = 0xF ∧ nn ∉ [0x07, 0x0A, 0x15, 0x18, 0x1E, 0x29, 0x33, 0x55, 0x65])

/-- A few words of the spec's examples, one or more of each family, decode to the instruction they stand for (R110, R111,
R113, R115, R142, R148, R149, R152, R153, R117, R181, R184, R185, R212, R241, R243). That 0x8125 is SUB and 0x844E is SHL is
the spec's own decision D2, which it marks as general knowledge (PRESUMED, log entry 11). -/
def Obligations.ExampleWordsDecode : Prop :=
  ∀ strict : Bool,
    decode strict 0x00EE = .ok .ret ∧ decode strict 0x1234 = .ok (.jp 0x234) ∧
    decode strict 0x3342 = .ok (.seImm 3 0x42) ∧ decode strict 0x5120 = .ok (.seReg 1 2) ∧
    decode strict 0x6005 = .ok (.ldImm 0 0x05) ∧ decode strict 0x8014 = .ok (.addReg 0 1) ∧
    decode strict 0x8125 = .ok (.sub 1 2) ∧ decode strict 0x844E = .ok (.shl 4 4) ∧
    decode strict 0xA300 = .ok (.ldI 0x300) ∧ decode strict 0xBFFF = .ok (.jpV0 0xFFF) ∧
    decode strict 0xC30F = .ok (.rnd 3 0x0F) ∧ decode strict 0xD015 = .ok (.drw 0 1 5) ∧
    decode strict 0xE19E = .ok (.skp 1) ∧ decode strict 0xF307 = .ok (.ldVDt 3) ∧
    decode strict 0xF333 = .ok (.ldB 3) ∧ decode strict 0xF255 = .ok (.ldMemV 2)

/-! ## The instruction cycle (20_memory.md R56, R57; 30_encoding.md R92; 60_exceptions.md) -/

/-- Fetch combines the bytes at `pc` and `pc + 1` as `hi*256 + lo` (R56, R57), wherever in memory `pc` points and whatever its
parity, which is the spec's own decision D21 (R58; log entry 14); with `pc + 1` above 0xFFF it is OutOfBounds(FETCH,
addr = pc, pc = pc), a record whose fields are decision D17 (log entry 18). -/
def Obligations.FetchReadsTwoBytesBigEndian : Prop :=
  ∀ s : State,
    (s.pc.toNat + 1 ≤ 0xFFF → ∃ w, fetch s = .ok w ∧
      w.toNat = (s.readByte s.pc.toNat).toNat * 256 + (s.readByte (s.pc.toNat + 1)).toNat) ∧
    (s.pc.toNat + 1 > 0xFFF → fetch s = .error (.outOfBounds .fetch s.pc.toNat s.pc))

/-- When the bytes at `pc` decode to `i`, a step of a running core is `exec i`, followed by the timer update unless `i`
raised an error (R92). -/
def Obligations.StepRunsTheDecodedInstruction : Prop :=
  ∀ (s t : State) (w : Word) (i : Instr),
    s.fault = none → s.pc.toNat + 1 ≤ 0xFFF →
    w.toNat = (s.readByte s.pc.toNat).toNat * 256 + (s.readByte (s.pc.toNat + 1)).toNat →
    decode s.cfg.strictDecode w = .ok i → exec i s = .next t →
    (t.fault = none → step s = .next { t with
      dt := if t.dt = 0 then 0 else t.dt - 1
      st := if t.st = 0 then 0 else t.st - 1 }) ∧
    (t.fault ≠ none → step s = .next t)

/-- A fetch out of bounds and a word that matches no operation are taken: the next state holds the record in the fault latch
and differs in nothing else, the timers among it (R57, R85; R272 and R282, the spec's own decision D19). -/
def Obligations.FetchAndDecodeErrorsAreTaken : Prop :=
  ∀ s : State, s.fault = none →
    (s.pc.toNat + 1 > 0xFFF → step s = .next { s with fault := some (.outOfBounds .fetch s.pc.toNat s.pc) }) ∧
    ∀ w : Word, s.pc.toNat + 1 ≤ 0xFFF →
      w.toNat = (s.readByte s.pc.toNat).toNat * 256 + (s.readByte (s.pc.toNat + 1)).toNat →
      decode s.cfg.strictDecode w = .error (.unknownOpcode w) →
      step s = .next { s with fault := some (.unknownOpcode w s.pc) }

/-- `step` answers an error exactly when the core is halted, and then the stored one; it never refuses; a running core always
has a next state (R273, the spec's own decision D19). -/
def Obligations.StepStopsOnlyWhenHalted : Prop :=
  ∀ s : State, (∀ e, step s = .fault e ↔ s.fault = some e) ∧ (∀ r, step s ≠ .refused r) ∧
    ((∃ t, step s = .next t) ↔ s.fault = none)

/-- A step that fails changes the fault latch and nothing else: no memory byte, register, cell, flag or timer (R272, R282,
the spec's own decision D19). -/
def Obligations.FailingStepChangesOnlyTheLatch : Prop :=
  ∀ s t : State, step s = .next t → t.fault ≠ none → t = { s with fault := t.fault }

/-- The record that a failing step leaves says truly why it failed: its `pc` is the instruction's address, and its kind and
fields fit the cause of R270; ImageTooLarge is never stored (R271, R275, R278; the spec's own decisions D17 and D18). -/
def Obligations.ErrorRecordsExplainTheFailure : Prop :=
  ∀ (s t : State) (e : Fault), step s = .next t → t.fault = some e → Fault.Explains t e

/-- R281: at the end of a step that raised no error each timer that is above 0 goes down by one, once, after the instruction
and whichever instruction it was; nothing else happens then. -/
def Obligations.TimerUpdateEndsTheStep : Prop :=
  ∀ s t : State, step s = .next t → t.fault = none →
    ∃ i u, fetchDecode s = .ok i ∧ exec i s = .next u ∧
      t.dt.toNat = u.dt.toNat - 1 ∧ t.st.toNat = u.st.toNat - 1 ∧ UnchangedBut [.dt, .st] u t

/-- The timers count completed steps: `DT` goes down by one in every step but that of Fx15, `ST` in every step but that of
Fx18, and neither goes below 0 (R283). -/
def Obligations.TimersCountCompletedSteps : Prop :=
  ∀ (s t : State) (i : Instr), fetchDecode s = .ok i → step s = .next t → t.fault = none →
    ((∀ x, i ≠ .ldDtV x) → t.dt.toNat = s.dt.toNat - 1) ∧ ((∀ x, i ≠ .ldStV x) → t.st.toNat = s.st.toNat - 1)

/-- A jump to its own address idles: after any number of steps nothing has changed but the timers, which have counted down
and stopped at 0 (R111, R283). -/
def Obligations.JumpToItselfIdles : Prop :=
  ∀ (s : State) (nnn : Addr) (n : Nat), s.fault = none → fetchDecode s = .ok (.jp nnn) → nnn.toNat = s.pc.toNat →
    SafeRun n s { s with dt := BitVec.ofNat 8 (s.dt.toNat - n), st := BitVec.ofNat 8 (s.st.toNat - n) }

/-! ## Control transfer and skips (40_control_flow.md) -/

/-- 1nnn and Bnnn (R111, R117): the words decode so; `pc` becomes the target, for Bnnn always plus V0 and not reduced; nothing
else changes. -/
def Obligations.JumpsGoToTheirTargets : Prop :=
  ∀ (s : State) (nnn : Addr),
    (∀ strict, decode strict (0x1#4 ++ nnn) = .ok (.jp nnn) ∧ decode strict (0xB#4 ++ nnn) = .ok (.jpV0 nnn)) ∧
    (∃ t, exec (.jp nnn) s = .next t ∧ t.pc.toNat = nnn.toNat ∧ UnchangedBut [.pc] s t) ∧
    (∃ t, exec (.jpV0 nnn) s = .next t ∧ t.pc.toNat = (s.reg 0).toNat + nnn.toNat ∧ UnchangedBut [.pc] s t)

/-- 2nnn (R112): the address of the CALL itself is pushed, `pc` becomes the target; with 16 frames pushed it is
StackOverflow, taken as the spec's own decision D19 says: the record is latched (its `pc` by D17) and nothing else happens. -/
def Obligations.CallPushesItsOwnAddress : Prop :=
  ∀ (s : State) (nnn : Addr),
    (∀ strict, decode strict (0x2#4 ++ nnn) = .ok (.call nnn)) ∧
    (∀ h : s.sp.val < 16, ∃ t, exec (.call nnn) s = .next t ∧ t.stack[s.sp.val] = s.pc ∧
      (∀ k : Fin 16, k.val ≠ s.sp.val → t.stack[k.val] = s.stack[k.val]) ∧ t.sp.val = s.sp.val + 1 ∧
      t.pc.toNat = nnn.toNat ∧ UnchangedBut [.pc, .stack, .sp] s t) ∧
    (s.sp.val = 16 → exec (.call nnn) s = .next { s with fault := some (.stackOverflow s.pc) })

/-- 00EE (R110): `pc` becomes the top frame plus 2, `sp` goes down, and the slot keeps its value; with no frame it is
StackUnderflow, taken as the spec's own decision D19 says: the record is latched (its `pc` by D17) and nothing else happens.
The slot's staying is decision D31; the bits 11-8 that strict decode checks are D1. -/
def Obligations.ReturnPopsAndAdvances : Prop :=
  (∀ (strict : Bool) (k : Nibble), decode strict 0x00EE = .ok .ret ∧ decode false (0x0#4 ++ k ++ 0xEE#8) = .ok .ret) ∧
  ∀ s : State,
    (∀ k : Fin 16, s.sp.val = k.val + 1 → ∃ t, exec .ret s = .next t ∧
      t.pc.toNat = ((s.stack[k.val]).toNat + 2) % 0x10000 ∧ t.sp.val = k.val ∧ UnchangedBut [.pc, .sp] s t) ∧
    (s.sp.val = 0 → exec .ret s = .next { s with fault := some (.stackUnderflow s.pc) })

/-- The stack round trip: a RET in any state that has the stack as the CALL left it goes on after the CALL, with the `sp` from
before it (R110, R112). -/
def Obligations.ReturnUndoesCall : Prop :=
  ∀ (s t u : State) (nnn : Addr), exec (.call nnn) s = .next t → s.sp.val < 16 → u.stack = t.stack → u.sp = t.sp →
    ∃ r, exec .ret u = .next r ∧ r.pc = s.pc + 2 ∧ r.sp = s.sp

/-- 3xnn and 4xnn (R113, R114): `pc` goes up by 4 when V[x] is (is not) `nn`, else by 2; nothing else changes. -/
def Obligations.ImmediateSkips : Prop :=
  ∀ (s : State) (x : Nibble) (nn : Byte),
    (∀ strict, decode strict (0x3#4 ++ x ++ nn) = .ok (.seImm x nn) ∧
      decode strict (0x4#4 ++ x ++ nn) = .ok (.sneImm x nn)) ∧
    (∃ t, exec (.seImm x nn) s = .next t ∧
      t.pc.toNat = (s.pc.toNat + if (s.reg x).toNat = nn.toNat then 4 else 2) % 0x10000 ∧ UnchangedBut [.pc] s t) ∧
    (∃ t, exec (.sneImm x nn) s = .next t ∧
      t.pc.toNat = (s.pc.toNat + if (s.reg x).toNat = nn.toNat then 2 else 4) % 0x10000 ∧ UnchangedBut [.pc] s t)

/-- 5xy0 and 9xy0 (R115, R116): `pc` goes up by 4 when V[x] and V[y] are (are not) equal, else by 2; nothing else changes. The
low nibble is checked under strict decode and ignored otherwise, the spec's own decision D1; both values are covered. -/
def Obligations.RegisterSkips : Prop :=
  ∀ (s : State) (x y n : Nibble),
    (∀ strict, strict = false ∨ n = 0 →
      decode strict (0x5#4 ++ x ++ y ++ n) = .ok (.seReg x y) ∧ decode strict (0x9#4 ++ x ++ y ++ n) = .ok (.sneReg x y)) ∧
    (n ≠ 0 → decode true (0x5#4 ++ x ++ y ++ n) = .error (.unknownOpcode (0x5#4 ++ x ++ y ++ n)) ∧
      decode true (0x9#4 ++ x ++ y ++ n) = .error (.unknownOpcode (0x9#4 ++ x ++ y ++ n))) ∧
    (∃ t, exec (.seReg x y) s = .next t ∧
      t.pc.toNat = (s.pc.toNat + if (s.reg x).toNat = (s.reg y).toNat then 4 else 2) % 0x10000 ∧
      UnchangedBut [.pc] s t) ∧
    (∃ t, exec (.sneReg x y) s = .next t ∧
      t.pc.toNat = (s.pc.toNat + if (s.reg x).toNat = (s.reg y).toNat then 2 else 4) % 0x10000 ∧
      UnchangedBut [.pc] s t)

/-! ## Register loads and the ALU (41_alu.md) -/

/-- 6xnn, 7xnn and 8xy0 (R142, R143, R144): the new V[x]; no other register, no flag, nothing else but
`pc + 2`. That 8xy0 is LD is the spec's own decision D2, which it marks as general knowledge (PRESUMED, log entry 11). -/
def Obligations.LoadsAndImmediateAdd : Prop :=
  ∀ (s : State) (x y : Nibble) (nn : Byte),
    (∀ strict, decode strict (0x6#4 ++ x ++ nn) = .ok (.ldImm x nn) ∧
      decode strict (0x7#4 ++ x ++ nn) = .ok (.addImm x nn) ∧
      decode strict (0x8#4 ++ x ++ y ++ 0x0#4) = .ok (.ldReg x y)) ∧
    (∃ t, exec (.ldImm x nn) s = .next t ∧ t.reg x = nn ∧ t.pc = s.pc + 2 ∧ RegsUnchangedBut [x] s t ∧
      UnchangedBut [.v, .pc] s t) ∧
    (∃ t, exec (.addImm x nn) s = .next t ∧ (t.reg x).toNat = ((s.reg x).toNat + nn.toNat) % 256 ∧ t.pc = s.pc + 2 ∧
      RegsUnchangedBut [x] s t ∧ UnchangedBut [.v, .pc] s t) ∧
    (∃ t, exec (.ldReg x y) s = .next t ∧ t.reg x = s.reg y ∧ t.pc = s.pc + 2 ∧ RegsUnchangedBut [x] s t ∧
      UnchangedBut [.v, .pc] s t)

/-- 8xy1, 8xy2 and 8xy3 (R145, R146, R147): V[x] bit by bit; VF is unchanged unless x = F, the spec's own decision D6. -/
def Obligations.BitwiseOperations : Prop :=
  ∀ (s : State) (x y : Nibble),
    (∃ t, exec (.or x y) s = .next t ∧
      (∀ k : Fin 8, (t.reg x).getLsbD k = true ↔ (s.reg x).getLsbD k = true ∨ (s.reg y).getLsbD k = true) ∧
      t.pc = s.pc + 2 ∧ RegsUnchangedBut [x] s t ∧ UnchangedBut [.v, .pc] s t) ∧
    (∃ t, exec (.and x y) s = .next t ∧
      (∀ k : Fin 8, (t.reg x).getLsbD k = true ↔ (s.reg x).getLsbD k = true ∧ (s.reg y).getLsbD k = true) ∧
      t.pc = s.pc + 2 ∧ RegsUnchangedBut [x] s t ∧ UnchangedBut [.v, .pc] s t) ∧
    (∃ t, exec (.xor x y) s = .next t ∧
      (∀ k : Fin 8, (t.reg x).getLsbD k = true ↔ ¬ ((s.reg x).getLsbD k = true ↔ (s.reg y).getLsbD k = true)) ∧
      t.pc = s.pc + 2 ∧ RegsUnchangedBut [x] s t ∧ UnchangedBut [.v, .pc] s t)

/-- 8xy4 (R148): V[x] is the sum modulo 256 and VF is 1 on a carry and 0 otherwise; with x = F, VF ends with the carry,
and the operands are those from before, so that with y = F the old VF is the addend (the spec's own decision D7). -/
def Obligations.AddSetsCarry : Prop :=
  ∀ (s : State) (x y : Nibble),
    let a := (s.reg x).toNat
    let b := (s.reg y).toNat
    (∀ strict, decode strict (0x8#4 ++ x ++ y ++ 0x4#4) = .ok (.addReg x y)) ∧
    ∃ t, exec (.addReg x y) s = .next t ∧ (x ≠ flagReg → (t.reg x).toNat = (a + b) % 256) ∧
      (t.reg flagReg).toNat = (if a + b > 255 then 1 else 0) ∧ t.pc = s.pc + 2 ∧
      RegsUnchangedBut [x, flagReg] s t ∧ UnchangedBut [.v, .pc] s t

/-- 8xy5 and 8xy7 (R149, R151): V[x] is the difference modulo 256 and VF is 1 when no borrow occurs, at equality too (the
spec's own decision D4; 8xy7 itself is its decision D2); VF is written last, so with x = F it ends with the flag (D7). -/
def Obligations.SubtractionsSetNoBorrow : Prop :=
  ∀ (s : State) (x y : Nibble),
    let a := (s.reg x).toNat
    let b := (s.reg y).toNat
    (∃ t, exec (.sub x y) s = .next t ∧ (x ≠ flagReg → (t.reg x).toNat = (a + 256 - b) % 256) ∧
      (t.reg flagReg).toNat = (if a ≥ b then 1 else 0) ∧ t.pc = s.pc + 2 ∧
      RegsUnchangedBut [x, flagReg] s t ∧ UnchangedBut [.v, .pc] s t) ∧
    (∃ t, exec (.subn x y) s = .next t ∧ (x ≠ flagReg → (t.reg x).toNat = (b + 256 - a) % 256) ∧
      (t.reg flagReg).toNat = (if b ≥ a then 1 else 0) ∧ t.pc = s.pc + 2 ∧
      RegsUnchangedBut [x, flagReg] s t ∧ UnchangedBut [.v, .pc] s t)

/-- 8xy6 and 8xyE (R150, R152): V[x] is the source shifted by one and VF the bit shifted out, written last (D7). The source is
V[x] or V[y] as `CFG_SHIFT_SOURCE` says (the spec's own decision D5); both values are covered. -/
def Obligations.ShiftsMoveOneBit : Prop :=
  ∀ (s : State) (x y : Nibble) (a : Nat),
    (s.cfg.shiftSource = .vx → a = (s.reg x).toNat) → (s.cfg.shiftSource = .vy → a = (s.reg y).toNat) →
    (∃ t, exec (.shr x y) s = .next t ∧ (x ≠ flagReg → (t.reg x).toNat = a / 2) ∧ (t.reg flagReg).toNat = a % 2 ∧
      t.pc = s.pc + 2 ∧ RegsUnchangedBut [x, flagReg] s t ∧ UnchangedBut [.v, .pc] s t) ∧
    (∃ t, exec (.shl x y) s = .next t ∧ (x ≠ flagReg → (t.reg x).toNat = a * 2 % 256) ∧
      (t.reg flagReg).toNat = a / 128 ∧
      t.pc = s.pc + 2 ∧ RegsUnchangedBut [x, flagReg] s t ∧ UnchangedBut [.v, .pc] s t)

/-- Cxnn (R153): V[x] is the drawn byte AND `nn`, whatever the byte is, so that no bit outside `nn` is ever set; each
execution uses up one draw of the free value `RNG` (the spec's own decision D15; log entry 4). -/
def Obligations.RandomByteIsMasked : Prop :=
  ∀ (s : State) (x : Nibble) (nn : Byte), ∃ t, exec (.rnd x nn) s = .next t ∧
    (∀ k : Fin 8, (t.reg x).getLsbD k = true ↔ (Config.rng s.draws).getLsbD k = true ∧ nn.getLsbD k = true) ∧
    t.draws = s.draws + 1 ∧ t.pc = s.pc + 2 ∧ RegsUnchangedBut [x] s t ∧ UnchangedBut [.v, .pc, .draws] s t

/-! ## The address register and memory (42_index_memory.md) -/

/-- Annn and Fx29 (R181, R183): `I` is `nnn`, or 5 times V[x] for every V[x]; nothing else changes but `pc + 2`. -/
def Obligations.AddressRegisterLoads : Prop :=
  ∀ (s : State) (x : Nibble) (nnn : Addr),
    (∀ strict, decode strict (0xA#4 ++ nnn) = .ok (.ldI nnn) ∧ decode strict (0xF#4 ++ x ++ 0x29#8) = .ok (.ldF x)) ∧
    (∃ t, exec (.ldI nnn) s = .next t ∧ t.i.toNat = nnn.toNat ∧ t.pc = s.pc + 2 ∧ UnchangedBut [.i, .pc] s t) ∧
    (∃ t, exec (.ldF x) s = .next t ∧ t.i.toNat = 5 * (s.reg x).toNat ∧ t.pc = s.pc + 2 ∧ UnchangedBut [.i, .pc] s t)

/-- Fx1E (R182): `I` goes up by V[x] modulo 2^16, with no check and no flag, the spec's own decision D11. -/
def Obligations.AddToAddressRegisterWraps : Prop :=
  ∀ (s : State) (x : Nibble), ∃ t, exec (.addI x) s = .next t ∧
    t.i.toNat = (s.i.toNat + (s.reg x).toNat) % 0x10000 ∧ t.pc = s.pc + 2 ∧ UnchangedBut [.i, .pc] s t

/-- Fx33 (R184): the three decimal digits of V[x] go to I, I+1, I+2, every other byte and everything else but `pc + 2` stays;
out of bounds (the spec's own decision D12), or below 0x200 with `CFG_RESERVED_WRITE` = `FAULT` (D13; both values are
covered), it is OutOfBounds for the lowest failing address (D18), and nothing happens but that it is latched (D19). -/
def Obligations.BcdStore : Prop :=
  ∀ (s : State) (x : Nibble), s.MemCanonical →
    let v := (s.reg x).toNat
    let a := s.i.toNat
    let reserved := s.cfg.reservedWrite = .fault ∧ a < 0x200
    (∀ strict, decode strict (0xF#4 ++ x ++ 0x33#8) = .ok (.ldB x)) ∧
    (a + 2 ≤ 0xFFF → ¬ reserved → ∃ t, exec (.ldB x) s = .next t ∧
      (t.readByte a).toNat = v / 100 ∧ (t.readByte (a + 1)).toNat = v / 10 % 10 ∧ (t.readByte (a + 2)).toNat = v % 10 ∧
      (∀ p, p < a ∨ a + 2 < p → t.readByte p = s.readByte p) ∧ t.pc = s.pc + 2 ∧ UnchangedBut [.mem, .pc] s t) ∧
    (reserved → exec (.ldB x) s = .next { s with fault := some (.outOfBounds .reservedWrite a s.pc) }) ∧
    (a + 2 > 0xFFF → exec (.ldB x) s = .next { s with fault := some (.outOfBounds .write (max a 0x1000) s.pc) })

/-- Fx55 (R185): V0..V[x] go to I..I+x, `I` goes up by x + 1, every other byte and everything else but `pc + 2` stays; out of
bounds (the spec's own decision D12), or below 0x200 with `CFG_RESERVED_WRITE` = `FAULT` (D13; both values are covered), it
is OutOfBounds for the lowest failing address (D18), and nothing happens but that it is latched (D19). -/
def Obligations.RegisterDump : Prop :=
  ∀ (s : State) (x : Nibble), s.MemCanonical →
    let a := s.i.toNat
    let reserved := s.cfg.reservedWrite = .fault ∧ a < 0x200
    (∀ strict, decode strict (0xF#4 ++ x ++ 0x55#8) = .ok (.ldMemV x)) ∧
    (a + x.toNat ≤ 0xFFF → ¬ reserved → ∃ t, exec (.ldMemV x) s = .next t ∧
      (∀ k : Nibble, k.toNat ≤ x.toNat → t.readByte (a + k.toNat) = s.reg k) ∧
      (∀ p, p < a ∨ a + x.toNat < p → t.readByte p = s.readByte p) ∧
      t.i.toNat = a + x.toNat + 1 ∧ t.pc = s.pc + 2 ∧ UnchangedBut [.mem, .i, .pc] s t) ∧
    (reserved → exec (.ldMemV x) s = .next { s with fault := some (.outOfBounds .reservedWrite a s.pc) }) ∧
    (a + x.toNat > 0xFFF →
      exec (.ldMemV x) s = .next { s with fault := some (.outOfBounds .write (max a 0x1000) s.pc) })

/-- Fx65 (R186): the bytes at I..I+x go to V0..V[x], `I` goes up by x + 1, every higher register and everything else but
`pc + 2` stays, whatever `CFG_RESERVED_WRITE` is; out of bounds (the spec's own decision D12) it is OutOfBounds(READ) for
the lowest failing address (D18), and nothing happens but that it is latched (D19). -/
def Obligations.RegisterLoad : Prop :=
  ∀ (s : State) (x : Nibble),
    let a := s.i.toNat
    (∀ strict, decode strict (0xF#4 ++ x ++ 0x65#8) = .ok (.ldVMem x)) ∧
    (a + x.toNat ≤ 0xFFF → ∃ t, exec (.ldVMem x) s = .next t ∧
      (∀ k : Nibble, k.toNat ≤ x.toNat → t.reg k = s.readByte (a + k.toNat)) ∧
      (∀ k : Nibble, x.toNat < k.toNat → t.reg k = s.reg k) ∧
      t.i.toNat = a + x.toNat + 1 ∧ t.pc = s.pc + 2 ∧ UnchangedBut [.v, .i, .pc] s t) ∧
    (a + x.toNat > 0xFFF → exec (.ldVMem x) s = .next { s with fault := some (.outOfBounds .read (max a 0x1000) s.pc) })

/-- A dump and then a load at the same address, with any other registers in between, gives back V0..V[x] (R185, R186). -/
def Obligations.LoadUndoesDump : Prop :=
  ∀ (s t u : State) (x : Nibble), s.MemCanonical → s.fault = none → exec (.ldMemV x) s = .next t → t.fault = none →
    u.mem = t.mem → u.cfg = t.cfg → u.i = s.i →
    ∃ w, exec (.ldVMem x) u = .next w ∧ ∀ k : Nibble, k.toNat ≤ x.toNat → w.reg k = s.reg k

/-- A fetch sees the bytes an earlier dump stored, the low address as the high byte (R66, the spec's own decision D23; R56). -/
def Obligations.FetchSeesStoredBytes : Prop :=
  ∀ (s t u : State) (x j k : Nibble), s.MemCanonical → s.fault = none → exec (.ldMemV x) s = .next t → t.fault = none →
    u.mem = t.mem → u.cfg = t.cfg → k.toNat = j.toNat + 1 → k.toNat ≤ x.toNat → u.pc.toNat = s.i.toNat + j.toNat →
    ∃ w, fetch u = .ok w ∧ w.toNat = (s.reg j).toNat * 256 + (s.reg k).toNat

/-! ## The display (43_display.md) -/

/-- 00E0 (R211): every one of the 2048 cells is 0 and `redraw` is 1, set even when nothing changed (the spec's own decision
D10); nothing else changes but `pc + 2`. -/
def Obligations.ClearDisplay : Prop :=
  ∀ s : State, ∃ t, exec .cls s = .next t ∧ (∀ k, Display.flat t.disp k = false) ∧ t.redraw = true ∧ t.pc = s.pc + 2 ∧
    UnchangedBut [.disp, .redraw, .pc] s t

/-- Dxyn (R212, R213): a cell changes exactly when a set bit of the n bytes at `I` falls on it, most significant bit leftmost,
each pixel wrapped (R214, the spec's own decision D8); VF is 1 exactly when one of those cells was set before, the origin
being read before VF is cleared; `redraw` is set (D10). With n = 0 no cell changes, wherever `I` points (D9). Out of bounds
it is OutOfBounds(READ) for the lowest failing address, and nothing happens but that it is latched (D12, D18, D19). -/
def Obligations.DrawTogglesTheCoveredCells : Prop :=
  ∀ (s : State) (x y n : Nibble),
    let a := s.i.toNat
    let covered := SpriteCovers (s.readBytes a n.toNat) (s.reg x).toNat (s.reg y).toNat
    (a + n.toNat ≤ 0x1000 ∨ n = 0 → ∃ t, exec (.drw x y n) s = .next t ∧
      (∀ px py, Display.cell t.disp px py = true ↔ ¬ (Display.cell s.disp px py = true ↔ covered px py)) ∧
      ((∃ px py, covered px py ∧ Display.cell s.disp px py = true) → t.reg flagReg = 1) ∧
      ((¬ ∃ px py, covered px py ∧ Display.cell s.disp px py = true) → t.reg flagReg = 0) ∧
      t.redraw = true ∧ t.pc = s.pc + 2 ∧ RegsUnchangedBut [flagReg] s t ∧
      UnchangedBut [.v, .disp, .redraw, .pc] s t) ∧
    (a + n.toNat > 0x1000 → n ≠ 0 →
      exec (.drw x y n) s = .next { s with fault := some (.outOfBounds .read (max a 0x1000) s.pc) })

/-- Drawing the same sprite twice at the same place gives every cell back its first value (R212). The second draw happens in any
state `u` that has the display, the memory, the parameters and `I` that the first draw left, and the first draw's
coordinates in V[x] and V[y]: `u` is `t` itself when neither is VF, which the first draw writes; when one is, it is a state
whose VF has been loaded again. For every n, n = 0 with `I` above 0x1000 too (D9).

The clause on VF is the model's choice between two texts of R212 (DEDUCED, log entry 7): by R212's pseudocode the second draw reports a
collision exactly when some covered cell was clear before the first, for that is a cell the first draw set; R212's corner
case says VF = 1 whenever the sprite has a set bit. -/
def Obligations.DrawingTwiceRestores : Prop :=
  ∀ (s t u : State) (x y n : Nibble), s.i.toNat + n.toNat ≤ 0x1000 ∨ n = 0 → exec (.drw x y n) s = .next t →
    u.disp = t.disp → u.mem = t.mem → u.cfg = t.cfg → u.i = t.i → u.reg x = s.reg x → u.reg y = s.reg y →
    ∃ w, exec (.drw x y n) u = .next w ∧ w.disp = s.disp ∧
      (w.reg flagReg = 1 ↔ ∃ px py,
        SpriteCovers (s.readBytes s.i.toNat n.toNat) (s.reg x).toNat (s.reg y).toNat px py ∧
          Display.cell s.disp px py = false)

/-! ## Keys and timers (44_keys_timers.md) -/

/-- Ex9E and ExA1 (R240, R241, R242): `pc` goes up by 4 when the key that V[x] names is (is not) pressed, else by 2; nothing
else changes. For V[x] of 16 or more, `CFG_KEY_INDEX_HIGH` says which: never pressed, or the key of the low nibble (the
spec's own decision D14); both values are covered. -/
def Obligations.KeySkips : Prop :=
  ∀ (s : State) (x : Nibble),
    let v := (s.reg x).toNat
    (∀ k : Fin 16, v = k.val ∨ (v > 0xF ∧ s.cfg.keyIndexHigh = .lowNibble ∧ v % 16 = k.val) →
      (∃ t, exec (.skp x) s = .next t ∧ t.pc.toNat = (s.pc.toNat + if s.key[k] = true then 4 else 2) % 0x10000 ∧
        UnchangedBut [.pc] s t) ∧
      (∃ t, exec (.sknp x) s = .next t ∧ t.pc.toNat = (s.pc.toNat + if s.key[k] = true then 2 else 4) % 0x10000 ∧
        UnchangedBut [.pc] s t)) ∧
    (v > 0xF → s.cfg.keyIndexHigh = .notPressed →
      (∃ t, exec (.skp x) s = .next t ∧ t.pc.toNat = (s.pc.toNat + 2) % 0x10000 ∧ UnchangedBut [.pc] s t) ∧
      (∃ t, exec (.sknp x) s = .next t ∧ t.pc.toNat = (s.pc.toNat + 4) % 0x10000 ∧ UnchangedBut [.pc] s t))

/-- Fx0A (R244, whose existence and form are the spec's own decision D3): with a key pressed, V[x] is the lowest pressed key
and `pc` goes up by 2; with none, nothing changes, so that it runs again in the next step. -/
def Obligations.KeyWait : Prop :=
  ∀ (s : State) (x : Nibble),
    (∀ k : Fin 16, s.key[k] = true → (∀ j : Fin 16, j < k → s.key[j] = false) →
      ∃ t, exec (.ldVK x) s = .next t ∧ (t.reg x).toNat = k.val ∧ t.pc = s.pc + 2 ∧ RegsUnchangedBut [x] s t ∧
        UnchangedBut [.v, .pc] s t) ∧
    ((∀ j : Fin 16, s.key[j] = false) → exec (.ldVK x) s = .next s)

/-- Fx07, Fx15 and Fx18 (R243, R245, R246): V[x] is `DT`, or `DT` or `ST` is V[x], and nothing else changes but `pc + 2`; and
after the whole step, whose timer update follows, the timer read is one lower and the timer set is V[x] - 1, or 0 if that
was 0. -/
def Obligations.TimerAccess : Prop :=
  ∀ (s : State) (x : Nibble),
    (∀ strict, decode strict (0xF#4 ++ x ++ 0x07#8) = .ok (.ldVDt x) ∧
      decode strict (0xF#4 ++ x ++ 0x15#8) = .ok (.ldDtV x) ∧ decode strict (0xF#4 ++ x ++ 0x18#8) = .ok (.ldStV x)) ∧
    (∃ t, exec (.ldVDt x) s = .next t ∧ t.reg x = s.dt ∧ t.pc = s.pc + 2 ∧ RegsUnchangedBut [x] s t ∧
      UnchangedBut [.v, .pc] s t) ∧
    (∃ t, exec (.ldDtV x) s = .next t ∧ t.dt = s.reg x ∧ t.pc = s.pc + 2 ∧ UnchangedBut [.dt, .pc] s t) ∧
    (∃ t, exec (.ldStV x) s = .next t ∧ t.st = s.reg x ∧ t.pc = s.pc + 2 ∧ UnchangedBut [.st, .pc] s t) ∧
    (s.fault = none →
      (fetchDecode s = .ok (.ldVDt x) →
        ∃ t, step s = .next t ∧ t.reg x = s.dt ∧ t.dt.toNat = s.dt.toNat - 1) ∧
      (fetchDecode s = .ok (.ldDtV x) → ∃ t, step s = .next t ∧ t.dt.toNat = (s.reg x).toNat - 1) ∧
      (fetchDecode s = .ok (.ldStV x) → ∃ t, step s = .next t ∧ t.st.toNat = (s.reg x).toNat - 1))

/-! ## Reset and the host (70_reset_and_hazards.md, 60_exceptions.md) -/

/-- R311 and R312: reset leaves memory zero but for the font at 0x000-0x04F, the registers zero, `pc` at 0x200, no frame
pushed; the first fetch reads 0x200 and 0x201; a RET before any CALL is StackUnderflow, taken as the spec's own decision D19
says. For every configuration; `State.reset` has the default one, the model's choice (log entry 2). -/
def Obligations.ResetLeavesTheEntryState : Prop :=
  State.reset = State.resetWith Config.default 0 ∧
  ∀ (c : Config) (d : Nat),
    let s := State.resetWith c d
    (∀ a : Fin 80, s.readByte a.val = c.font[a.val]) ∧ (∀ a, 0x50 ≤ a → s.readByte a = 0) ∧
    (∀ r, s.reg r = 0) ∧ s.pc.toNat = 0x200 ∧ s.sp.val = 0 ∧ s.cfg = c ∧
    fetch s = .ok (s.readByte 0x200 ++ s.readByte 0x201) ∧
    exec .ret s = .next { s with fault := some (.stackUnderflow 0x200) }

/-- The reset values that the source does not state are the spec's own decision D25: `I`, `DT`, `ST`, the stack, the display,
`redraw`, the keys 0, and no fault (R40; log entry 5). A host reset leaves exactly this state, whatever came before, under
the same configuration (R310). -/
def Obligations.ResetClearsEverythingElse : Prop :=
  ∀ s : State,
    let t := s.hostReset
    hostAct .reset s = .next t ∧ t = State.resetWith s.cfg s.draws ∧
    t.i.toNat = 0 ∧ t.dt.toNat = 0 ∧ t.st.toNat = 0 ∧ (∀ k : Fin 16, (t.stack[k]).toNat = 0) ∧
    (∀ k, t.hostCell k = false) ∧ t.redraw = false ∧ (∀ k, t.keyFlag k = false) ∧ t.fault = none

/-- R313, R314: an image of at most 3584 bytes goes to 0x200 and up and nothing else changes, whatever `CFG_RESERVED_WRITE`
is; a longer one is ImageTooLarge with its length, and no state comes of it. -/
def Obligations.LoadProgramCopiesTheImage : Prop :=
  ∀ (s : State) (bytes : List Byte), s.MemCanonical →
    (bytes.length ≤ 3584 → ∃ t, loadProgram bytes s = .next t ∧
      (∀ (k : Nat) (h : k < bytes.length), t.readByte (0x200 + k) = bytes[k]) ∧
      (∀ p, p < 0x200 ∨ 0x200 + bytes.length ≤ p → t.readByte p = s.readByte p) ∧ UnchangedBut [.mem] s t) ∧
    (bytes.length > 3584 → loadProgram bytes s = .fault (.imageTooLarge bytes.length))

/-- What the host can do between steps besides stepping and resetting: write one key flag, clear `redraw`, load an image. It
writes no V, `I`, `pc`, stack, `sp`, `DT`, `ST`, display cell or fault, and sets no `redraw` (R286, R287, R288). -/
def Obligations.HostWritesOnlyItsOwn : Prop :=
  ∀ s : State,
    (∀ (k : Nibble) (b : Bool), ∃ t, hostAct (.writeKey k b) s = .next t ∧ t.keyFlag k = b ∧
      (∀ j, j ≠ k → t.keyFlag j = s.keyFlag j) ∧ UnchangedBut [.key] s t) ∧
    (∃ t, hostAct .clearRedraw s = .next t ∧ t.redraw = false ∧ UnchangedBut [.redraw] s t) ∧
    ∀ (a : HostAction) (t : State), a ≠ .step → a ≠ .reset → hostAct a s = .next t →
      UnchangedBut [.key, .redraw, .mem] s t ∧ (t.redraw = true → s.redraw = true)

/-- A trace record comes of exactly the steps that run an instruction without an error, and holds that instruction's address,
word, mnemonic and operation (R290, the spec's own decision D28). -/
def Obligations.TraceRecordsCompletedSteps : Prop :=
  ∀ s : State,
    ((∃ r, s.trace = some r) ↔ ∃ t, step s = .next t ∧ t.fault = none) ∧
    ∀ r, s.trace = some r → r.address = s.pc ∧ fetch s = .ok r.word ∧
      decode s.cfg.strictDecode r.word = .ok r.operation ∧ r.mnemonic = r.operation.mnemonic

/-! ## Whole-machine rules -/

/-- An instruction that completes sets `pc` to `pc + 2`, but for 1nnn, 2nnn, Bnnn, 00EE, the six skips and Fx0A (R93). -/
def Obligations.OtherInstructionsAdvance : Prop :=
  ∀ (i : Instr) (s t : State), ¬ i.SetsPc → s.fault = none → exec i s = .next t → t.fault = none → t.pc = s.pc + 2

/-- Which registers each of the 34 instructions writes, and so which it never writes, VF among them: the table of R23, with
VF written as a flag by 8xy4-8xy7, 8xyE and Dxyn alone (R22, R36). -/
def Obligations.RegistersWrittenAreThoseOfTheTable : Prop :=
  ∀ (i : Instr) (s t : State), exec i s = .next t → RegsUnchangedBut i.regsWritten s t

/-- Which pieces of the state each of the 34 instructions writes, and so which it never writes: only 2nnn writes the stack, only
00E0 and Dxyn the display and `redraw`, only Fx33 and Fx55 memory, only Annn, Fx1E, Fx29, Fx55 and Fx65 `I`, none a key or a
parameter; and only 00EE, 2nnn, Dxyn, Fx33, Fx55 and Fx65 can raise an error (R24, R27, R32, R33, R34, R63, R270). -/
def Obligations.PartsWrittenAreThoseOfTheRules : Prop :=
  ∀ (i : Instr) (s t : State), exec i s = .next t → UnchangedBut i.partsWritten s t

/-- No step writes a key flag, and none changes a configuration parameter (R34, R20). -/
def Obligations.StepNeverWritesKeysOrParameters : Prop :=
  ∀ s t : State, step s = .next t → t.key = s.key ∧ t.cfg = s.cfg

/-- With `CFG_RESERVED_WRITE` = `FAULT` nothing but a reset changes a byte below 0x200, the font among them: no instruction,
no image, no other action of the host (R54, R55, R60, R313; the spec's own decision D13). -/
def Obligations.ReservedBytesAreProtected : Prop :=
  ∀ (a : HostAction) (s t : State), s.MemCanonical → s.cfg.reservedWrite = .fault → a ≠ .reset → hostAct a s = .next t →
    ∀ p, p < 0x200 → t.readByte p = s.readByte p

/-- Nothing an instruction does, but for the piece itself, depends on `ST` or on `redraw` (R31, R33: no instruction reads
them), nor on the key flags unless it is Ex9E, ExA1 or Fx0A (R34). -/
def Obligations.UnreadPiecesDoNotMatter : Prop :=
  ∀ (i : Instr) (s t : State), exec i s = .next t →
    (∀ b, ∃ u, exec i { s with st := b } = .next u ∧ u = { t with st := u.st }) ∧
    (∀ b, ∃ u, exec i { s with redraw := b } = .next u ∧ u = { t with redraw := u.redraw }) ∧
    (¬ i.ReadsKeys → ∀ keys, exec i { s with key := keys } = .next { t with key := keys })

/-- Stack slots at or above `sp` are not observable: two states that differ in nothing else step to two states that differ in
nothing else (R29, the spec's own decision D31). -/
def Obligations.DeadStackSlotsAreNotObservable : Prop :=
  ∀ s t s' : State, State.SameButDeadFrames s t → step s = .next s' →
    ∃ t', step t = .next t' ∧ State.SameButDeadFrames s' t'

/-! ## Invariants -/

/-- Reset memory has its canonical form, and the reset `pc` and stack are in range, for every configuration (R40). -/
def Obligations.ResetIsWellKept : Prop :=
  ∀ (c : Config) (d : Nat), (State.resetWith c d).MemCanonical ∧ (State.resetWith c d).PcInRange

/-- Every step keeps memory in its canonical form: every listed byte inside the 4096, at rising addresses, none equal to what
the address reads as unlisted (R50). -/
def Obligations.StepKeepsMemoryCanonical : Prop :=
  ∀ s t : State, s.MemCanonical → step s = .next t → t.MemCanonical

/-- Every step keeps `pc` at or below 0x10FE and every pushed frame at or below 0xFFE, so that the 16-bit modulus of `pc` never
acts (R25). -/
def Obligations.StepKeepsPcInRange : Prop :=
  ∀ s t : State, s.PcInRange → step s = .next t → t.PcInRange

/-- Every action of the host, loading an image and resetting among them, keeps both (R286, R313). -/
def Obligations.HostActionsKeepStatesWellKept : Prop :=
  ∀ (a : HostAction) (s t : State), s.MemCanonical → s.PcInRange → hostAct a s = .next t →
    t.MemCanonical ∧ t.PcInRange
end

