-- ==== Sys2Proof/Laws/State.lean ====
section
/-! SUPPORT. One lemma for each field of State under each update, true by rfl, so that no proof unfolds a record update; and
the same for the three reads that proofs use (a register, a memory byte, a key flag). -/

namespace Sys2Proof.Machine

/-! ## writeByte -/

@[simp] theorem State.writeByte_v (s : State) (a : Nat) (b : Byte) :
    (s.writeByte a b).v = s.v := rfl
@[simp] theorem State.writeByte_i (s : State) (a : Nat) (b : Byte) :
    (s.writeByte a b).i = s.i := rfl
@[simp] theorem State.writeByte_pc (s : State) (a : Nat) (b : Byte) :
    (s.writeByte a b).pc = s.pc := rfl
@[simp] theorem State.writeByte_stack (s : State) (a : Nat) (b : Byte) :
    (s.writeByte a b).stack = s.stack := rfl
@[simp] theorem State.writeByte_sp (s : State) (a : Nat) (b : Byte) :
    (s.writeByte a b).sp = s.sp := rfl
@[simp] theorem State.writeByte_dt (s : State) (a : Nat) (b : Byte) :
    (s.writeByte a b).dt = s.dt := rfl
@[simp] theorem State.writeByte_st (s : State) (a : Nat) (b : Byte) :
    (s.writeByte a b).st = s.st := rfl
@[simp] theorem State.writeByte_mem (s : State) (a : Nat) (b : Byte) :
    (s.writeByte a b).mem = Memory.write s.cfg.font s.mem a b := rfl
@[simp] theorem State.writeByte_disp (s : State) (a : Nat) (b : Byte) :
    (s.writeByte a b).disp = s.disp := rfl
@[simp] theorem State.writeByte_redraw (s : State) (a : Nat) (b : Byte) :
    (s.writeByte a b).redraw = s.redraw := rfl
@[simp] theorem State.writeByte_key (s : State) (a : Nat) (b : Byte) :
    (s.writeByte a b).key = s.key := rfl
@[simp] theorem State.writeByte_fault (s : State) (a : Nat) (b : Byte) :
    (s.writeByte a b).fault = s.fault := rfl
@[simp] theorem State.writeByte_draws (s : State) (a : Nat) (b : Byte) :
    (s.writeByte a b).draws = s.draws := rfl
@[simp] theorem State.writeByte_cfg (s : State) (a : Nat) (b : Byte) :
    (s.writeByte a b).cfg = s.cfg := rfl
@[simp] theorem State.writeByte_reg (s : State) (a : Nat) (b : Byte) (r : Nibble) :
    (s.writeByte a b).reg r = s.reg r := rfl
@[simp] theorem State.writeByte_keyFlag (s : State) (a : Nat) (b : Byte) (q : Nibble) :
    (s.writeByte a b).keyFlag q = s.keyFlag q := rfl

/-! ## setReg -/

@[simp] theorem State.setReg_v (s : State) (x : Nibble) (b : Byte) :
    (s.setReg x b).v = s.v.set x.toNat b x.isLt := rfl
@[simp] theorem State.setReg_i (s : State) (x : Nibble) (b : Byte) :
    (s.setReg x b).i = s.i := rfl
@[simp] theorem State.setReg_pc (s : State) (x : Nibble) (b : Byte) :
    (s.setReg x b).pc = s.pc := rfl
@[simp] theorem State.setReg_stack (s : State) (x : Nibble) (b : Byte) :
    (s.setReg x b).stack = s.stack := rfl
@[simp] theorem State.setReg_sp (s : State) (x : Nibble) (b : Byte) :
    (s.setReg x b).sp = s.sp := rfl
@[simp] theorem State.setReg_dt (s : State) (x : Nibble) (b : Byte) :
    (s.setReg x b).dt = s.dt := rfl
@[simp] theorem State.setReg_st (s : State) (x : Nibble) (b : Byte) :
    (s.setReg x b).st = s.st := rfl
@[simp] theorem State.setReg_mem (s : State) (x : Nibble) (b : Byte) :
    (s.setReg x b).mem = s.mem := rfl
@[simp] theorem State.setReg_disp (s : State) (x : Nibble) (b : Byte) :
    (s.setReg x b).disp = s.disp := rfl
@[simp] theorem State.setReg_redraw (s : State) (x : Nibble) (b : Byte) :
    (s.setReg x b).redraw = s.redraw := rfl
@[simp] theorem State.setReg_key (s : State) (x : Nibble) (b : Byte) :
    (s.setReg x b).key = s.key := rfl
@[simp] theorem State.setReg_fault (s : State) (x : Nibble) (b : Byte) :
    (s.setReg x b).fault = s.fault := rfl
@[simp] theorem State.setReg_draws (s : State) (x : Nibble) (b : Byte) :
    (s.setReg x b).draws = s.draws := rfl
@[simp] theorem State.setReg_cfg (s : State) (x : Nibble) (b : Byte) :
    (s.setReg x b).cfg = s.cfg := rfl
@[simp] theorem State.setReg_readByte (s : State) (x : Nibble) (b : Byte) (p : Nat) :
    (s.setReg x b).readByte p = s.readByte p := rfl
@[simp] theorem State.setReg_keyFlag (s : State) (x : Nibble) (b : Byte) (q : Nibble) :
    (s.setReg x b).keyFlag q = s.keyFlag q := rfl

/-! ## setI -/

@[simp] theorem State.setI_v (s : State) (a : Word) :
    (s.setI a).v = s.v := rfl
@[simp] theorem State.setI_i (s : State) (a : Word) :
    (s.setI a).i = a := rfl
@[simp] theorem State.setI_pc (s : State) (a : Word) :
    (s.setI a).pc = s.pc := rfl
@[simp] theorem State.setI_stack (s : State) (a : Word) :
    (s.setI a).stack = s.stack := rfl
@[simp] theorem State.setI_sp (s : State) (a : Word) :
    (s.setI a).sp = s.sp := rfl
@[simp] theorem State.setI_dt (s : State) (a : Word) :
    (s.setI a).dt = s.dt := rfl
@[simp] theorem State.setI_st (s : State) (a : Word) :
    (s.setI a).st = s.st := rfl
@[simp] theorem State.setI_mem (s : State) (a : Word) :
    (s.setI a).mem = s.mem := rfl
@[simp] theorem State.setI_disp (s : State) (a : Word) :
    (s.setI a).disp = s.disp := rfl
@[simp] theorem State.setI_redraw (s : State) (a : Word) :
    (s.setI a).redraw = s.redraw := rfl
@[simp] theorem State.setI_key (s : State) (a : Word) :
    (s.setI a).key = s.key := rfl
@[simp] theorem State.setI_fault (s : State) (a : Word) :
    (s.setI a).fault = s.fault := rfl
@[simp] theorem State.setI_draws (s : State) (a : Word) :
    (s.setI a).draws = s.draws := rfl
@[simp] theorem State.setI_cfg (s : State) (a : Word) :
    (s.setI a).cfg = s.cfg := rfl
@[simp] theorem State.setI_reg (s : State) (a : Word) (r : Nibble) :
    (s.setI a).reg r = s.reg r := rfl
@[simp] theorem State.setI_readByte (s : State) (a : Word) (p : Nat) :
    (s.setI a).readByte p = s.readByte p := rfl
@[simp] theorem State.setI_keyFlag (s : State) (a : Word) (q : Nibble) :
    (s.setI a).keyFlag q = s.keyFlag q := rfl

/-! ## setPc -/

@[simp] theorem State.setPc_v (s : State) (a : Word) :
    (s.setPc a).v = s.v := rfl
@[simp] theorem State.setPc_i (s : State) (a : Word) :
    (s.setPc a).i = s.i := rfl
@[simp] theorem State.setPc_pc (s : State) (a : Word) :
    (s.setPc a).pc = a := rfl
@[simp] theorem State.setPc_stack (s : State) (a : Word) :
    (s.setPc a).stack = s.stack := rfl
@[simp] theorem State.setPc_sp (s : State) (a : Word) :
    (s.setPc a).sp = s.sp := rfl
@[simp] theorem State.setPc_dt (s : State) (a : Word) :
    (s.setPc a).dt = s.dt := rfl
@[simp] theorem State.setPc_st (s : State) (a : Word) :
    (s.setPc a).st = s.st := rfl
@[simp] theorem State.setPc_mem (s : State) (a : Word) :
    (s.setPc a).mem = s.mem := rfl
@[simp] theorem State.setPc_disp (s : State) (a : Word) :
    (s.setPc a).disp = s.disp := rfl
@[simp] theorem State.setPc_redraw (s : State) (a : Word) :
    (s.setPc a).redraw = s.redraw := rfl
@[simp] theorem State.setPc_key (s : State) (a : Word) :
    (s.setPc a).key = s.key := rfl
@[simp] theorem State.setPc_fault (s : State) (a : Word) :
    (s.setPc a).fault = s.fault := rfl
@[simp] theorem State.setPc_draws (s : State) (a : Word) :
    (s.setPc a).draws = s.draws := rfl
@[simp] theorem State.setPc_cfg (s : State) (a : Word) :
    (s.setPc a).cfg = s.cfg := rfl
@[simp] theorem State.setPc_reg (s : State) (a : Word) (r : Nibble) :
    (s.setPc a).reg r = s.reg r := rfl
@[simp] theorem State.setPc_readByte (s : State) (a : Word) (p : Nat) :
    (s.setPc a).readByte p = s.readByte p := rfl
@[simp] theorem State.setPc_keyFlag (s : State) (a : Word) (q : Nibble) :
    (s.setPc a).keyFlag q = s.keyFlag q := rfl

/-! ## advance -/

@[simp] theorem State.advance_v (s : State) :
    s.advance.v = s.v := rfl
@[simp] theorem State.advance_i (s : State) :
    s.advance.i = s.i := rfl
@[simp] theorem State.advance_pc (s : State) :
    s.advance.pc = s.pc + 2 := rfl
@[simp] theorem State.advance_stack (s : State) :
    s.advance.stack = s.stack := rfl
@[simp] theorem State.advance_sp (s : State) :
    s.advance.sp = s.sp := rfl
@[simp] theorem State.advance_dt (s : State) :
    s.advance.dt = s.dt := rfl
@[simp] theorem State.advance_st (s : State) :
    s.advance.st = s.st := rfl
@[simp] theorem State.advance_mem (s : State) :
    s.advance.mem = s.mem := rfl
@[simp] theorem State.advance_disp (s : State) :
    s.advance.disp = s.disp := rfl
@[simp] theorem State.advance_redraw (s : State) :
    s.advance.redraw = s.redraw := rfl
@[simp] theorem State.advance_key (s : State) :
    s.advance.key = s.key := rfl
@[simp] theorem State.advance_fault (s : State) :
    s.advance.fault = s.fault := rfl
@[simp] theorem State.advance_draws (s : State) :
    s.advance.draws = s.draws := rfl
@[simp] theorem State.advance_cfg (s : State) :
    s.advance.cfg = s.cfg := rfl
@[simp] theorem State.advance_reg (s : State) (r : Nibble) :
    s.advance.reg r = s.reg r := rfl
@[simp] theorem State.advance_readByte (s : State) (p : Nat) :
    s.advance.readByte p = s.readByte p := rfl
@[simp] theorem State.advance_keyFlag (s : State) (q : Nibble) :
    s.advance.keyFlag q = s.keyFlag q := rfl

/-! ## skipIf -/

@[simp] theorem State.skipIf_v (s : State) (c : Bool) :
    (s.skipIf c).v = s.v := rfl
@[simp] theorem State.skipIf_i (s : State) (c : Bool) :
    (s.skipIf c).i = s.i := rfl
@[simp] theorem State.skipIf_pc (s : State) (c : Bool) :
    (s.skipIf c).pc = if c then s.pc + 4 else s.pc + 2 := rfl
@[simp] theorem State.skipIf_stack (s : State) (c : Bool) :
    (s.skipIf c).stack = s.stack := rfl
@[simp] theorem State.skipIf_sp (s : State) (c : Bool) :
    (s.skipIf c).sp = s.sp := rfl
@[simp] theorem State.skipIf_dt (s : State) (c : Bool) :
    (s.skipIf c).dt = s.dt := rfl
@[simp] theorem State.skipIf_st (s : State) (c : Bool) :
    (s.skipIf c).st = s.st := rfl
@[simp] theorem State.skipIf_mem (s : State) (c : Bool) :
    (s.skipIf c).mem = s.mem := rfl
@[simp] theorem State.skipIf_disp (s : State) (c : Bool) :
    (s.skipIf c).disp = s.disp := rfl
@[simp] theorem State.skipIf_redraw (s : State) (c : Bool) :
    (s.skipIf c).redraw = s.redraw := rfl
@[simp] theorem State.skipIf_key (s : State) (c : Bool) :
    (s.skipIf c).key = s.key := rfl
@[simp] theorem State.skipIf_fault (s : State) (c : Bool) :
    (s.skipIf c).fault = s.fault := rfl
@[simp] theorem State.skipIf_draws (s : State) (c : Bool) :
    (s.skipIf c).draws = s.draws := rfl
@[simp] theorem State.skipIf_cfg (s : State) (c : Bool) :
    (s.skipIf c).cfg = s.cfg := rfl
@[simp] theorem State.skipIf_reg (s : State) (c : Bool) (r : Nibble) :
    (s.skipIf c).reg r = s.reg r := rfl
@[simp] theorem State.skipIf_readByte (s : State) (c : Bool) (p : Nat) :
    (s.skipIf c).readByte p = s.readByte p := rfl
@[simp] theorem State.skipIf_keyFlag (s : State) (c : Bool) (q : Nibble) :
    (s.skipIf c).keyFlag q = s.keyFlag q := rfl

/-! ## push -/

@[simp] theorem State.push_v (s : State) (a : Word) (h : s.sp.val < 16) :
    (s.push a h).v = s.v := rfl
@[simp] theorem State.push_i (s : State) (a : Word) (h : s.sp.val < 16) :
    (s.push a h).i = s.i := rfl
@[simp] theorem State.push_pc (s : State) (a : Word) (h : s.sp.val < 16) :
    (s.push a h).pc = s.pc := rfl
@[simp] theorem State.push_stack (s : State) (a : Word) (h : s.sp.val < 16) :
    (s.push a h).stack = s.stack.set s.sp.val a h := rfl
@[simp] theorem State.push_sp (s : State) (a : Word) (h : s.sp.val < 16) :
    (s.push a h).sp = ⟨s.sp.val + 1, by omega⟩ := rfl
@[simp] theorem State.push_dt (s : State) (a : Word) (h : s.sp.val < 16) :
    (s.push a h).dt = s.dt := rfl
@[simp] theorem State.push_st (s : State) (a : Word) (h : s.sp.val < 16) :
    (s.push a h).st = s.st := rfl
@[simp] theorem State.push_mem (s : State) (a : Word) (h : s.sp.val < 16) :
    (s.push a h).mem = s.mem := rfl
@[simp] theorem State.push_disp (s : State) (a : Word) (h : s.sp.val < 16) :
    (s.push a h).disp = s.disp := rfl
@[simp] theorem State.push_redraw (s : State) (a : Word) (h : s.sp.val < 16) :
    (s.push a h).redraw = s.redraw := rfl
@[simp] theorem State.push_key (s : State) (a : Word) (h : s.sp.val < 16) :
    (s.push a h).key = s.key := rfl
@[simp] theorem State.push_fault (s : State) (a : Word) (h : s.sp.val < 16) :
    (s.push a h).fault = s.fault := rfl
@[simp] theorem State.push_draws (s : State) (a : Word) (h : s.sp.val < 16) :
    (s.push a h).draws = s.draws := rfl
@[simp] theorem State.push_cfg (s : State) (a : Word) (h : s.sp.val < 16) :
    (s.push a h).cfg = s.cfg := rfl
@[simp] theorem State.push_reg (s : State) (a : Word) (h : s.sp.val < 16) (r : Nibble) :
    (s.push a h).reg r = s.reg r := rfl
@[simp] theorem State.push_readByte (s : State) (a : Word) (h : s.sp.val < 16) (p : Nat) :
    (s.push a h).readByte p = s.readByte p := rfl
@[simp] theorem State.push_keyFlag (s : State) (a : Word) (h : s.sp.val < 16) (q : Nibble) :
    (s.push a h).keyFlag q = s.keyFlag q := rfl

/-! ## pop -/

@[simp] theorem State.pop_v (s : State) :
    s.pop.v = s.v := rfl
@[simp] theorem State.pop_i (s : State) :
    s.pop.i = s.i := rfl
@[simp] theorem State.pop_pc (s : State) :
    s.pop.pc = s.pc := rfl
@[simp] theorem State.pop_stack (s : State) :
    s.pop.stack = s.stack := rfl
@[simp] theorem State.pop_sp (s : State) :
    s.pop.sp = ⟨s.sp.val - 1, by omega⟩ := rfl
@[simp] theorem State.pop_dt (s : State) :
    s.pop.dt = s.dt := rfl
@[simp] theorem State.pop_st (s : State) :
    s.pop.st = s.st := rfl
@[simp] theorem State.pop_mem (s : State) :
    s.pop.mem = s.mem := rfl
@[simp] theorem State.pop_disp (s : State) :
    s.pop.disp = s.disp := rfl
@[simp] theorem State.pop_redraw (s : State) :
    s.pop.redraw = s.redraw := rfl
@[simp] theorem State.pop_key (s : State) :
    s.pop.key = s.key := rfl
@[simp] theorem State.pop_fault (s : State) :
    s.pop.fault = s.fault := rfl
@[simp] theorem State.pop_draws (s : State) :
    s.pop.draws = s.draws := rfl
@[simp] theorem State.pop_cfg (s : State) :
    s.pop.cfg = s.cfg := rfl
@[simp] theorem State.pop_reg (s : State) (r : Nibble) :
    s.pop.reg r = s.reg r := rfl
@[simp] theorem State.pop_readByte (s : State) (p : Nat) :
    s.pop.readByte p = s.readByte p := rfl
@[simp] theorem State.pop_keyFlag (s : State) (q : Nibble) :
    s.pop.keyFlag q = s.keyFlag q := rfl

/-! ## setDt -/

@[simp] theorem State.setDt_v (s : State) (b : Byte) :
    (s.setDt b).v = s.v := rfl
@[simp] theorem State.setDt_i (s : State) (b : Byte) :
    (s.setDt b).i = s.i := rfl
@[simp] theorem State.setDt_pc (s : State) (b : Byte) :
    (s.setDt b).pc = s.pc := rfl
@[simp] theorem State.setDt_stack (s : State) (b : Byte) :
    (s.setDt b).stack = s.stack := rfl
@[simp] theorem State.setDt_sp (s : State) (b : Byte) :
    (s.setDt b).sp = s.sp := rfl
@[simp] theorem State.setDt_dt (s : State) (b : Byte) :
    (s.setDt b).dt = b := rfl
@[simp] theorem State.setDt_st (s : State) (b : Byte) :
    (s.setDt b).st = s.st := rfl
@[simp] theorem State.setDt_mem (s : State) (b : Byte) :
    (s.setDt b).mem = s.mem := rfl
@[simp] theorem State.setDt_disp (s : State) (b : Byte) :
    (s.setDt b).disp = s.disp := rfl
@[simp] theorem State.setDt_redraw (s : State) (b : Byte) :
    (s.setDt b).redraw = s.redraw := rfl
@[simp] theorem State.setDt_key (s : State) (b : Byte) :
    (s.setDt b).key = s.key := rfl
@[simp] theorem State.setDt_fault (s : State) (b : Byte) :
    (s.setDt b).fault = s.fault := rfl
@[simp] theorem State.setDt_draws (s : State) (b : Byte) :
    (s.setDt b).draws = s.draws := rfl
@[simp] theorem State.setDt_cfg (s : State) (b : Byte) :
    (s.setDt b).cfg = s.cfg := rfl
@[simp] theorem State.setDt_reg (s : State) (b : Byte) (r : Nibble) :
    (s.setDt b).reg r = s.reg r := rfl
@[simp] theorem State.setDt_readByte (s : State) (b : Byte) (p : Nat) :
    (s.setDt b).readByte p = s.readByte p := rfl
@[simp] theorem State.setDt_keyFlag (s : State) (b : Byte) (q : Nibble) :
    (s.setDt b).keyFlag q = s.keyFlag q := rfl

/-! ## setSt -/

@[simp] theorem State.setSt_v (s : State) (b : Byte) :
    (s.setSt b).v = s.v := rfl
@[simp] theorem State.setSt_i (s : State) (b : Byte) :
    (s.setSt b).i = s.i := rfl
@[simp] theorem State.setSt_pc (s : State) (b : Byte) :
    (s.setSt b).pc = s.pc := rfl
@[simp] theorem State.setSt_stack (s : State) (b : Byte) :
    (s.setSt b).stack = s.stack := rfl
@[simp] theorem State.setSt_sp (s : State) (b : Byte) :
    (s.setSt b).sp = s.sp := rfl
@[simp] theorem State.setSt_dt (s : State) (b : Byte) :
    (s.setSt b).dt = s.dt := rfl
@[simp] theorem State.setSt_st (s : State) (b : Byte) :
    (s.setSt b).st = b := rfl
@[simp] theorem State.setSt_mem (s : State) (b : Byte) :
    (s.setSt b).mem = s.mem := rfl
@[simp] theorem State.setSt_disp (s : State) (b : Byte) :
    (s.setSt b).disp = s.disp := rfl
@[simp] theorem State.setSt_redraw (s : State) (b : Byte) :
    (s.setSt b).redraw = s.redraw := rfl
@[simp] theorem State.setSt_key (s : State) (b : Byte) :
    (s.setSt b).key = s.key := rfl
@[simp] theorem State.setSt_fault (s : State) (b : Byte) :
    (s.setSt b).fault = s.fault := rfl
@[simp] theorem State.setSt_draws (s : State) (b : Byte) :
    (s.setSt b).draws = s.draws := rfl
@[simp] theorem State.setSt_cfg (s : State) (b : Byte) :
    (s.setSt b).cfg = s.cfg := rfl
@[simp] theorem State.setSt_reg (s : State) (b : Byte) (r : Nibble) :
    (s.setSt b).reg r = s.reg r := rfl
@[simp] theorem State.setSt_readByte (s : State) (b : Byte) (p : Nat) :
    (s.setSt b).readByte p = s.readByte p := rfl
@[simp] theorem State.setSt_keyFlag (s : State) (b : Byte) (q : Nibble) :
    (s.setSt b).keyFlag q = s.keyFlag q := rfl

/-! ## countDraw -/

@[simp] theorem State.countDraw_v (s : State) :
    s.countDraw.v = s.v := rfl
@[simp] theorem State.countDraw_i (s : State) :
    s.countDraw.i = s.i := rfl
@[simp] theorem State.countDraw_pc (s : State) :
    s.countDraw.pc = s.pc := rfl
@[simp] theorem State.countDraw_stack (s : State) :
    s.countDraw.stack = s.stack := rfl
@[simp] theorem State.countDraw_sp (s : State) :
    s.countDraw.sp = s.sp := rfl
@[simp] theorem State.countDraw_dt (s : State) :
    s.countDraw.dt = s.dt := rfl
@[simp] theorem State.countDraw_st (s : State) :
    s.countDraw.st = s.st := rfl
@[simp] theorem State.countDraw_mem (s : State) :
    s.countDraw.mem = s.mem := rfl
@[simp] theorem State.countDraw_disp (s : State) :
    s.countDraw.disp = s.disp := rfl
@[simp] theorem State.countDraw_redraw (s : State) :
    s.countDraw.redraw = s.redraw := rfl
@[simp] theorem State.countDraw_key (s : State) :
    s.countDraw.key = s.key := rfl
@[simp] theorem State.countDraw_fault (s : State) :
    s.countDraw.fault = s.fault := rfl
@[simp] theorem State.countDraw_draws (s : State) :
    s.countDraw.draws = s.draws + 1 := rfl
@[simp] theorem State.countDraw_cfg (s : State) :
    s.countDraw.cfg = s.cfg := rfl
@[simp] theorem State.countDraw_reg (s : State) (r : Nibble) :
    s.countDraw.reg r = s.reg r := rfl
@[simp] theorem State.countDraw_readByte (s : State) (p : Nat) :
    s.countDraw.readByte p = s.readByte p := rfl
@[simp] theorem State.countDraw_keyFlag (s : State) (q : Nibble) :
    s.countDraw.keyFlag q = s.keyFlag q := rfl

/-! ## timerUpdate -/

@[simp] theorem State.timerUpdate_v (s : State) :
    s.timerUpdate.v = s.v := rfl
@[simp] theorem State.timerUpdate_i (s : State) :
    s.timerUpdate.i = s.i := rfl
@[simp] theorem State.timerUpdate_pc (s : State) :
    s.timerUpdate.pc = s.pc := rfl
@[simp] theorem State.timerUpdate_stack (s : State) :
    s.timerUpdate.stack = s.stack := rfl
@[simp] theorem State.timerUpdate_sp (s : State) :
    s.timerUpdate.sp = s.sp := rfl
@[simp] theorem State.timerUpdate_dt (s : State) :
    s.timerUpdate.dt = tick s.dt := rfl
@[simp] theorem State.timerUpdate_st (s : State) :
    s.timerUpdate.st = tick s.st := rfl
@[simp] theorem State.timerUpdate_mem (s : State) :
    s.timerUpdate.mem = s.mem := rfl
@[simp] theorem State.timerUpdate_disp (s : State) :
    s.timerUpdate.disp = s.disp := rfl
@[simp] theorem State.timerUpdate_redraw (s : State) :
    s.timerUpdate.redraw = s.redraw := rfl
@[simp] theorem State.timerUpdate_key (s : State) :
    s.timerUpdate.key = s.key := rfl
@[simp] theorem State.timerUpdate_fault (s : State) :
    s.timerUpdate.fault = s.fault := rfl
@[simp] theorem State.timerUpdate_draws (s : State) :
    s.timerUpdate.draws = s.draws := rfl
@[simp] theorem State.timerUpdate_cfg (s : State) :
    s.timerUpdate.cfg = s.cfg := rfl
@[simp] theorem State.timerUpdate_reg (s : State) (r : Nibble) :
    s.timerUpdate.reg r = s.reg r := rfl
@[simp] theorem State.timerUpdate_readByte (s : State) (p : Nat) :
    s.timerUpdate.readByte p = s.readByte p := rfl
@[simp] theorem State.timerUpdate_keyFlag (s : State) (q : Nibble) :
    s.timerUpdate.keyFlag q = s.keyFlag q := rfl

/-! ## redrawWith -/

@[simp] theorem State.redrawWith_v (s : State) (d : Display) :
    (s.redrawWith d).v = s.v := rfl
@[simp] theorem State.redrawWith_i (s : State) (d : Display) :
    (s.redrawWith d).i = s.i := rfl
@[simp] theorem State.redrawWith_pc (s : State) (d : Display) :
    (s.redrawWith d).pc = s.pc := rfl
@[simp] theorem State.redrawWith_stack (s : State) (d : Display) :
    (s.redrawWith d).stack = s.stack := rfl
@[simp] theorem State.redrawWith_sp (s : State) (d : Display) :
    (s.redrawWith d).sp = s.sp := rfl
@[simp] theorem State.redrawWith_dt (s : State) (d : Display) :
    (s.redrawWith d).dt = s.dt := rfl
@[simp] theorem State.redrawWith_st (s : State) (d : Display) :
    (s.redrawWith d).st = s.st := rfl
@[simp] theorem State.redrawWith_mem (s : State) (d : Display) :
    (s.redrawWith d).mem = s.mem := rfl
@[simp] theorem State.redrawWith_disp (s : State) (d : Display) :
    (s.redrawWith d).disp = d := rfl
@[simp] theorem State.redrawWith_redraw (s : State) (d : Display) :
    (s.redrawWith d).redraw = true := rfl
@[simp] theorem State.redrawWith_key (s : State) (d : Display) :
    (s.redrawWith d).key = s.key := rfl
@[simp] theorem State.redrawWith_fault (s : State) (d : Display) :
    (s.redrawWith d).fault = s.fault := rfl
@[simp] theorem State.redrawWith_draws (s : State) (d : Display) :
    (s.redrawWith d).draws = s.draws := rfl
@[simp] theorem State.redrawWith_cfg (s : State) (d : Display) :
    (s.redrawWith d).cfg = s.cfg := rfl
@[simp] theorem State.redrawWith_reg (s : State) (d : Display) (r : Nibble) :
    (s.redrawWith d).reg r = s.reg r := rfl
@[simp] theorem State.redrawWith_readByte (s : State) (d : Display) (p : Nat) :
    (s.redrawWith d).readByte p = s.readByte p := rfl
@[simp] theorem State.redrawWith_keyFlag (s : State) (d : Display) (q : Nibble) :
    (s.redrawWith d).keyFlag q = s.keyFlag q := rfl

/-! ## writeKey -/

@[simp] theorem State.writeKey_v (s : State) (k : Nibble) (b : Bool) :
    (s.writeKey k b).v = s.v := rfl
@[simp] theorem State.writeKey_i (s : State) (k : Nibble) (b : Bool) :
    (s.writeKey k b).i = s.i := rfl
@[simp] theorem State.writeKey_pc (s : State) (k : Nibble) (b : Bool) :
    (s.writeKey k b).pc = s.pc := rfl
@[simp] theorem State.writeKey_stack (s : State) (k : Nibble) (b : Bool) :
    (s.writeKey k b).stack = s.stack := rfl
@[simp] theorem State.writeKey_sp (s : State) (k : Nibble) (b : Bool) :
    (s.writeKey k b).sp = s.sp := rfl
@[simp] theorem State.writeKey_dt (s : State) (k : Nibble) (b : Bool) :
    (s.writeKey k b).dt = s.dt := rfl
@[simp] theorem State.writeKey_st (s : State) (k : Nibble) (b : Bool) :
    (s.writeKey k b).st = s.st := rfl
@[simp] theorem State.writeKey_mem (s : State) (k : Nibble) (b : Bool) :
    (s.writeKey k b).mem = s.mem := rfl
@[simp] theorem State.writeKey_disp (s : State) (k : Nibble) (b : Bool) :
    (s.writeKey k b).disp = s.disp := rfl
@[simp] theorem State.writeKey_redraw (s : State) (k : Nibble) (b : Bool) :
    (s.writeKey k b).redraw = s.redraw := rfl
@[simp] theorem State.writeKey_key (s : State) (k : Nibble) (b : Bool) :
    (s.writeKey k b).key = s.key.set k.toNat b k.isLt := rfl
@[simp] theorem State.writeKey_fault (s : State) (k : Nibble) (b : Bool) :
    (s.writeKey k b).fault = s.fault := rfl
@[simp] theorem State.writeKey_draws (s : State) (k : Nibble) (b : Bool) :
    (s.writeKey k b).draws = s.draws := rfl
@[simp] theorem State.writeKey_cfg (s : State) (k : Nibble) (b : Bool) :
    (s.writeKey k b).cfg = s.cfg := rfl
@[simp] theorem State.writeKey_reg (s : State) (k : Nibble) (b : Bool) (r : Nibble) :
    (s.writeKey k b).reg r = s.reg r := rfl
@[simp] theorem State.writeKey_readByte (s : State) (k : Nibble) (b : Bool) (p : Nat) :
    (s.writeKey k b).readByte p = s.readByte p := rfl

/-! ## clearRedraw -/

@[simp] theorem State.clearRedraw_v (s : State) :
    s.clearRedraw.v = s.v := rfl
@[simp] theorem State.clearRedraw_i (s : State) :
    s.clearRedraw.i = s.i := rfl
@[simp] theorem State.clearRedraw_pc (s : State) :
    s.clearRedraw.pc = s.pc := rfl
@[simp] theorem State.clearRedraw_stack (s : State) :
    s.clearRedraw.stack = s.stack := rfl
@[simp] theorem State.clearRedraw_sp (s : State) :
    s.clearRedraw.sp = s.sp := rfl
@[simp] theorem State.clearRedraw_dt (s : State) :
    s.clearRedraw.dt = s.dt := rfl
@[simp] theorem State.clearRedraw_st (s : State) :
    s.clearRedraw.st = s.st := rfl
@[simp] theorem State.clearRedraw_mem (s : State) :
    s.clearRedraw.mem = s.mem := rfl
@[simp] theorem State.clearRedraw_disp (s : State) :
    s.clearRedraw.disp = s.disp := rfl
@[simp] theorem State.clearRedraw_redraw (s : State) :
    s.clearRedraw.redraw = false := rfl
@[simp] theorem State.clearRedraw_key (s : State) :
    s.clearRedraw.key = s.key := rfl
@[simp] theorem State.clearRedraw_fault (s : State) :
    s.clearRedraw.fault = s.fault := rfl
@[simp] theorem State.clearRedraw_draws (s : State) :
    s.clearRedraw.draws = s.draws := rfl
@[simp] theorem State.clearRedraw_cfg (s : State) :
    s.clearRedraw.cfg = s.cfg := rfl
@[simp] theorem State.clearRedraw_reg (s : State) (r : Nibble) :
    s.clearRedraw.reg r = s.reg r := rfl
@[simp] theorem State.clearRedraw_readByte (s : State) (p : Nat) :
    s.clearRedraw.readByte p = s.readByte p := rfl
@[simp] theorem State.clearRedraw_keyFlag (s : State) (q : Nibble) :
    s.clearRedraw.keyFlag q = s.keyFlag q := rfl

end Sys2Proof.Machine
end

