-- ==== Sys2Proof/Laws/Display.lean ====
section
/-! SUPPORT. The laws of the display (43_display.md): one cell, and what a sprite scan does to every cell and to the
collision flag, said without the scan. -/

namespace Sys2Proof.Machine

/-- A toggle flips its own cell and leaves every other. -/
theorem Display.cell_toggle (d : Display) (px qx : Fin 64) (py qy : Fin 32) :
    Display.cell (Display.toggle d px py) qx qy = (Display.cell d qx qy ^^ decide (qx = px ∧ qy = py)) := by
  simp only [Display.cell, Display.toggle, Vector.getElem_set]
  by_cases hy : py.val = qy.val
  · have : qy = py := Fin.ext hy.symm
    subst this
    by_cases hx : qx = px
    · subst hx; simp [qx.isLt]
    · have : ¬ qx.val = px.val := fun h => hx (Fin.ext h)
      simp [hx, this]
  · have : ¬ qy = py := fun h => hy (congrArg Fin.val h).symm
    simp [hy, this]

@[simp] theorem Display.cell_clear (px : Fin 64) (py : Fin 32) : Display.cell Display.clear px py = false := by
  simp [Display.cell, Display.clear]

/-- A display is known when every cell is. -/
theorem Display.ext_cell (d e : Display) (h : ∀ px py, Display.cell d px py = Display.cell e px py) : d = e := by
  refine Vector.ext fun k hk => BitVec.eq_of_getLsbD_eq fun j hj => ?_
  exact h ⟨j, hj⟩ ⟨k, hk⟩

@[simp] theorem wrapX_val (a : Nat) : (wrapX a).val = a % 64 := rfl

@[simp] theorem wrapY_val (a : Nat) : (wrapY a).val = a % 32 := rfl

/-- The scan of one row over the columns `cs`. -/
theorem blitColumns_spec (row : Byte) (ox y : Nat) (cs : List Nat) (b : Blit) (hcs : ∀ c ∈ cs, c < 8) (hnd : cs.Nodup) :
    let out := cs.foldl (fun acc c => if row.getLsbD (7 - c) then blitPixel acc (wrapX (ox + c)) (wrapY y) else acc) b
    (∀ px py, Display.cell out.disp px py = true ↔
      ¬ (Display.cell b.disp px py = true ↔
        (py.val = y % 32 ∧ ∃ c ∈ cs, row.getLsbD (7 - c) = true ∧ px.val = (ox + c) % 64))) ∧
    (out.hit = true ↔ b.hit = true ∨ ∃ c ∈ cs, row.getLsbD (7 - c) = true ∧
      Display.cell b.disp (wrapX (ox + c)) (wrapY y) = true) := by
  induction cs generalizing b with
  | nil => simp
  | cons c cs ih =>
    obtain ⟨hc, hnd⟩ := List.nodup_cons.mp hnd
    have h8 : c < 8 := hcs c (by simp)
    have hcs' : ∀ c ∈ cs, c < 8 := fun d hd => hcs d (by simp [hd])
    -- another column of the same row lands elsewhere
    have apart : ∀ d ∈ cs, (ox + d) % 64 ≠ (ox + c) % 64 := by
      intro d hd h
      have : d = c := by have := hcs' d hd; omega
      exact hc (this ▸ hd)
    simp only [List.foldl_cons, List.exists_mem_cons_iff]
    by_cases hbit : row.getLsbD (7 - c) = true
    · simp only [hbit, if_true, true_and]
      obtain ⟨ihc, ihh⟩ := ih (blitPixel b (wrapX (ox + c)) (wrapY y)) hcs' hnd
      refine ⟨fun px py => ?_, ?_⟩
      · have here : (px = wrapX (ox + c) ∧ py = wrapY y) ↔ px.val = (ox + c) % 64 ∧ py.val = y % 32 := by
          simp [Fin.ext_iff]
        rw [ihc]
        simp only [blitPixel, Display.cell_toggle, here]
        by_cases hpx : px.val = (ox + c) % 64 ∧ py.val = y % 32
        · have none : ¬ ∃ d ∈ cs, row.getLsbD (7 - d) = true ∧ px.val = (ox + d) % 64 := by
            rintro ⟨d, hd, _, h⟩
            exact apart d hd (h.symm.trans hpx.1)
          simp only [none, or_false]
          simp [hpx]
        · simp only [decide_eq_false hpx, Bool.xor_false]
          by_cases hpy : py.val = y % 32
          · simp [show ¬ px.val = (ox + c) % 64 from fun h => hpx ⟨h, hpy⟩]
          · simp [hpy]
      · have elsewhere : ∀ d ∈ cs, Display.cell (blitPixel b (wrapX (ox + c)) (wrapY y)).disp (wrapX (ox + d)) (wrapY y) =
            Display.cell b.disp (wrapX (ox + d)) (wrapY y) := by
          intro d hd
          have : ¬ wrapX (ox + d) = wrapX (ox + c) := fun h => apart d hd (congrArg Fin.val h)
          simp [blitPixel, Display.cell_toggle, this]
        have rest : (∃ d ∈ cs, row.getLsbD (7 - d) = true ∧
              Display.cell (blitPixel b (wrapX (ox + c)) (wrapY y)).disp (wrapX (ox + d)) (wrapY y) = true) ↔
            ∃ d ∈ cs, row.getLsbD (7 - d) = true ∧ Display.cell b.disp (wrapX (ox + d)) (wrapY y) = true :=
          exists_congr fun d => and_congr_right fun hd => by rw [elsewhere d hd]
        rw [ihh, rest]
        simp only [blitPixel, Bool.or_eq_true, or_assoc]
    · simp only [hbit, Bool.false_eq_true, if_false, false_and, false_or]
      exact ih b hcs' hnd

/-- Everything a row does. -/
theorem blitRow_spec (b : Blit) (ox y : Nat) (row : Byte) :
    (∀ px py, Display.cell (blitRow b ox y row).disp px py = true ↔
      ¬ (Display.cell b.disp px py = true ↔
        (py.val = y % 32 ∧ ∃ c < 8, row.getLsbD (7 - c) = true ∧ px.val = (ox + c) % 64))) ∧
    ((blitRow b ox y row).hit = true ↔ b.hit = true ∨ ∃ c < 8, row.getLsbD (7 - c) = true ∧
      Display.cell b.disp (wrapX (ox + c)) (wrapY y) = true) := by
  have := blitColumns_spec row ox y (List.range 8) b (by simp) List.nodup_range
  simpa only [blitRow, List.mem_range] using this

/-- The covered cells of a sprite are its first row's and the other rows'. -/
theorem spriteCovers_cons (row : Byte) (rows : List Byte) (ox y : Nat) (px : Fin 64) (py : Fin 32) :
    SpriteCovers (row :: rows) ox y px py ↔
      (py.val = y % 32 ∧ ∃ c < 8, row.getLsbD (7 - c) = true ∧ px.val = (ox + c) % 64) ∨
        SpriteCovers rows ox (y + 1) px py := by
  constructor
  · rintro ⟨r, c, hc, ⟨w, hw, hbit⟩, hx, hy⟩
    cases r with
    | zero =>
      simp only [List.getElem?_cons_zero, Option.some.injEq] at hw
      subst hw
      exact .inl ⟨by simpa using hy, c, hc, hbit, hx⟩
    | succ r => exact .inr ⟨r, c, hc, ⟨w, by simpa using hw, hbit⟩, hx, by rw [hy]; congr 1; omega⟩
  · rintro (⟨hy, c, hc, hbit, hx⟩ | ⟨r, c, hc, ⟨w, hw, hbit⟩, hx, hy⟩)
    · exact ⟨0, c, hc, ⟨row, by simp, hbit⟩, hx, by simpa using hy⟩
    · exact ⟨r + 1, c, hc, ⟨w, by simpa using hw, hbit⟩, hx, by rw [hy]; congr 1; omega⟩

/-- No later row of a sprite of at most 32 rows falls on the first row's display row. -/
theorem spriteCovers_apart (rows : List Byte) (ox y : Nat) (px : Fin 64) (py : Fin 32) (hr : rows.length < 32)
    (hpy : py.val = y % 32) : ¬ SpriteCovers rows ox (y + 1) px py := by
  rintro ⟨r, c, _, ⟨w, hw, _⟩, _, hy⟩
  obtain ⟨hlt, _⟩ := List.getElem?_eq_some_iff.mp hw
  omega

/-- Everything a sprite of at most 32 rows does: a cell changes exactly when a set source bit falls on it, and a collision is
recorded exactly when one of those cells was set before. -/
theorem blitRows_spec (rows : List Byte) (b : Blit) (ox y : Nat) (hr : rows.length ≤ 32) :
    (∀ px py, Display.cell (blitRows b ox y rows).disp px py = true ↔
      ¬ (Display.cell b.disp px py = true ↔ SpriteCovers rows ox y px py)) ∧
    ((blitRows b ox y rows).hit = true ↔
      b.hit = true ∨ ∃ px py, SpriteCovers rows ox y px py ∧ Display.cell b.disp px py = true) := by
  induction rows generalizing b y with
  | nil => simp [blitRows, SpriteCovers]
  | cons row rows ih =>
    have hlen : (row :: rows).length = rows.length + 1 := rfl
    obtain ⟨ihc, ihh⟩ := ih (blitRow b ox y row) (y + 1) (by omega)
    obtain ⟨rowc, rowh⟩ := blitRow_spec b ox y row
    have apart := fun px py => spriteCovers_apart rows ox y px py (by omega)
    -- below the first row, the first row's scan changes nothing
    have same : ∀ px py, SpriteCovers rows ox (y + 1) px py →
        (Display.cell (blitRow b ox y row).disp px py = true ↔ Display.cell b.disp px py = true) := by
      intro px py hcov
      have hpy : ¬ py.val = y % 32 := fun h => apart px py h hcov
      rw [rowc]
      simp [hpy]
    refine ⟨fun px py => ?_, ?_⟩
    · rw [blitRows, ihc, spriteCovers_cons]
      by_cases hcov : SpriteCovers rows ox (y + 1) px py
      · rw [same px py hcov]
        simp [hcov]
      · rw [rowc]
        simp [hcov]
    · rw [blitRows, ihh, rowh, or_assoc]
      refine or_congr_right ?_
      constructor
      · rintro (⟨c, hc, hbit, h⟩ | ⟨px, py, hcov, h⟩)
        · exact ⟨_, _, (spriteCovers_cons ..).mpr (.inl ⟨rfl, c, hc, hbit, rfl⟩), h⟩
        · exact ⟨px, py, (spriteCovers_cons ..).mpr (.inr hcov), (same px py hcov).mp h⟩
      · rintro ⟨px, py, hcov, h⟩
        rcases (spriteCovers_cons ..).mp hcov with ⟨hpy, c, hc, hbit, hx⟩ | hcov
        · refine .inl ⟨c, hc, hbit, ?_⟩
          rwa [show wrapX (ox + c) = px from Fin.ext hx.symm, show wrapY y = py from Fin.ext hpy.symm]
        · exact .inr ⟨px, py, hcov, (same px py hcov).mpr h⟩

end Sys2Proof.Machine
end

