-- ==== Sys2Proof/Laws/Encoding.lean ====
section
/-! SUPPORT. The fields of a word put together from fields (30_encoding.md R80, R81), and the word's bytes (R56). -/

namespace Sys2Proof

/-! ## f, x, nn -/

@[simp] theorem highNibble_wordFXNN (f x : Nibble) (nn : Byte) : highNibble (wordFXNN f x nn) = f := by
  unfold highNibble wordFXNN
  rw [BitVec.extractLsb'_append_eq_of_le (by decide), BitVec.extractLsb'_append_eq_of_le (by decide)]
  exact BitVec.extractLsb'_eq_self

@[simp] theorem fieldX_wordFXNN (f x : Nibble) (nn : Byte) : fieldX (wordFXNN f x nn) = x := by
  unfold fieldX wordFXNN
  rw [BitVec.extractLsb'_append_eq_of_le (by decide), BitVec.extractLsb'_append_eq_of_add_le (by decide)]
  exact BitVec.extractLsb'_eq_self

@[simp] theorem fieldNN_wordFXNN (f x : Nibble) (nn : Byte) : fieldNN (wordFXNN f x nn) = nn := by
  unfold fieldNN wordFXNN
  rw [BitVec.extractLsb'_append_eq_of_add_le (by decide)]
  exact BitVec.extractLsb'_eq_self

/-! ## f, x, y, n -/

@[simp] theorem highNibble_wordFXYN (f x y n : Nibble) : highNibble (wordFXYN f x y n) = f := by
  unfold highNibble wordFXYN
  rw [BitVec.extractLsb'_append_eq_of_le (by decide), BitVec.extractLsb'_append_eq_of_le (by decide),
    BitVec.extractLsb'_append_eq_of_le (by decide)]
  exact BitVec.extractLsb'_eq_self

@[simp] theorem fieldX_wordFXYN (f x y n : Nibble) : fieldX (wordFXYN f x y n) = x := by
  unfold fieldX wordFXYN
  rw [BitVec.extractLsb'_append_eq_of_le (by decide), BitVec.extractLsb'_append_eq_of_le (by decide),
    BitVec.extractLsb'_append_eq_of_add_le (by decide)]
  exact BitVec.extractLsb'_eq_self

@[simp] theorem fieldY_wordFXYN (f x y n : Nibble) : fieldY (wordFXYN f x y n) = y := by
  unfold fieldY wordFXYN
  rw [BitVec.extractLsb'_append_eq_of_le (by decide), BitVec.extractLsb'_append_eq_of_add_le (by decide)]
  exact BitVec.extractLsb'_eq_self

@[simp] theorem fieldN_wordFXYN (f x y n : Nibble) : fieldN (wordFXYN f x y n) = n := by
  unfold fieldN wordFXYN
  rw [BitVec.extractLsb'_append_eq_of_add_le (by decide)]
  exact BitVec.extractLsb'_eq_self

/-! ## f, nnn -/

@[simp] theorem highNibble_wordFNNN (f : Nibble) (nnn : Addr) : highNibble (wordFNNN f nnn) = f := by
  unfold highNibble wordFNNN
  rw [BitVec.extractLsb'_append_eq_of_le (by decide)]
  exact BitVec.extractLsb'_eq_self

@[simp] theorem fieldNNN_wordFNNN (f : Nibble) (nnn : Addr) : fieldNNN (wordFNNN f nnn) = nnn := by
  unfold fieldNNN wordFNNN
  rw [BitVec.extractLsb'_append_eq_of_add_le (by decide)]
  exact BitVec.extractLsb'_eq_self

/-! ## The bytes of a word -/

@[simp] theorem wordOfBytes_highByte_lowByte (w : Word) : wordOfBytes (highByte w) (lowByte w) = w := by
  unfold wordOfBytes highByte lowByte
  rw [BitVec.extractLsb'_append_extractLsb'_eq_extractLsb' (by decide)]
  exact BitVec.extractLsb'_eq_self

@[simp] theorem highByte_wordOfBytes (hi lo : Byte) : highByte (wordOfBytes hi lo) = hi := by
  unfold wordOfBytes highByte
  rw [BitVec.extractLsb'_append_eq_of_le (by decide)]
  exact BitVec.extractLsb'_eq_self

@[simp] theorem lowByte_wordOfBytes (hi lo : Byte) : lowByte (wordOfBytes hi lo) = lo := by
  unfold wordOfBytes lowByte
  rw [BitVec.extractLsb'_append_eq_of_add_le (by decide)]
  exact BitVec.extractLsb'_eq_self

/-- R56: the word fetched is `hi*256 + lo`. -/
theorem wordOfBytes_toNat (hi lo : Byte) : (wordOfBytes hi lo).toNat = hi.toNat * 256 + lo.toNat := by
  unfold wordOfBytes
  rw [BitVec.toNat_append, ← Nat.shiftLeft_add_eq_or_of_lt lo.isLt, Nat.shiftLeft_eq]

/-! ## Words under the table's masks -/

theorem wordFXNN_and (f x f' x' : Nibble) (nn nn' : Byte) :
    wordFXNN f x nn &&& wordFXNN f' x' nn' = wordFXNN (f &&& f') (x &&& x') (nn &&& nn') := by
  unfold wordFXNN
  rw [BitVec.and_append, BitVec.and_append]

theorem wordFXYN_and (f x y n f' x' y' n' : Nibble) :
    wordFXYN f x y n &&& wordFXYN f' x' y' n' = wordFXYN (f &&& f') (x &&& x') (y &&& y') (n &&& n') := by
  unfold wordFXYN
  rw [BitVec.and_append, BitVec.and_append, BitVec.and_append]

theorem wordFNNN_and (f f' : Nibble) (nnn nnn' : Addr) :
    wordFNNN f nnn &&& wordFNNN f' nnn' = wordFNNN (f &&& f') (nnn &&& nnn') := by
  unfold wordFNNN
  rw [BitVec.and_append]

end Sys2Proof
end

