-- ==== Sys2Proof/Laws/Memory.lean ====
section
/-! SUPPORT. The laws of memory (20_memory.md): a read after a write, the canonical form and that every operation keeps it,
runs of bytes, and the address checks. -/

namespace Sys2Proof.Machine

/-! ## One byte -/

theorem Memory.read_cell_append (font : Font) (m : Memory) (a p : Nat) (b : Byte)
    (h : ∀ c ∈ m, a < c.1) :
    Memory.read font (Memory.cell font a b ++ m) p = if p = a then b else Memory.read font m p := by
  have above : ∀ m : Memory, (∀ c ∈ m, a < c.1) → Memory.read font m a = Memory.unlisted font a := by
    intro m
    induction m with
    | nil => intro _; rfl
    | cons c m ih =>
      intro h
      have hc := h c (by simp)
      simp only [Memory.read, if_neg (show ¬ c.1 = a by omega)]
      exact ih fun d hd => h d (by simp [hd])
  unfold Memory.cell
  split
  · rename_i hb
    by_cases hp : p = a
    · subst hp; simp [above m h, hb]
    · simp [hp]
  · by_cases hp : p = a
    · subst hp; simp [Memory.read]
    · simp [Memory.read, hp, Ne.symm hp]

/-- A read after a write: the byte written at its own address, the old byte everywhere else. -/
theorem Memory.read_write (font : Font) (m : Memory) (a p : Nat) (b : Byte)
    (hm : m.Pairwise fun c d => c.1 < d.1) :
    Memory.read font (Memory.write font m a b) p = if p = a then b else Memory.read font m p := by
  induction m with
  | nil => simpa [Memory.write] using Memory.read_cell_append font [] a p b (by simp)
  | cons c m ih =>
    obtain ⟨hc, hm⟩ := List.pairwise_cons.mp hm
    simp only [Memory.write]
    split
    · rename_i hlt
      refine Memory.read_cell_append font (c :: m) a p b fun d hd => ?_
      rcases List.mem_cons.mp hd with rfl | hd
      · exact hlt
      · exact hlt.trans (hc d hd)
    · split
      · rename_i _ heq
        subst heq
        rw [Memory.read_cell_append font m _ p b hc]
        by_cases hp : p = c.1
        · simp [hp]
        · simp [Memory.read, hp, Ne.symm hp]
      · rename_i hlt hne
        simp only [Memory.read, ih hm]
        by_cases hp : p = a
        · subst hp; simp [Ne.symm hne]
        · simp [hp]

/-- The keys of a memory after a write are the old ones and, at most, the address written. -/
theorem Memory.key_mem_write (font : Font) (m : Memory) (a : Nat) (b : Byte) (c : Host.Cell)
    (h : c ∈ Memory.write font m a b) : c ∈ m ∨ (c = (a, b) ∧ b ≠ Memory.unlisted font a) := by
  have cell : ∀ c ∈ Memory.cell font a b, c = (a, b) ∧ b ≠ Memory.unlisted font a := by
    intro c hc
    unfold Memory.cell at hc
    split at hc
    · simp at hc
    · rename_i hb; exact ⟨by simpa using hc, hb⟩
  induction m with
  | nil => exact .inr (cell c (by simpa [Memory.write] using h))
  | cons d m ih =>
    simp only [Memory.write] at h
    split at h
    · rcases List.mem_append.mp h with h | h
      · exact .inr (cell c h)
      · exact .inl h
    · split at h
      · rcases List.mem_append.mp h with h | h
        · exact .inr (cell c h)
        · exact .inl (List.mem_cons_of_mem _ h)
      · rcases List.mem_cons.mp h with rfl | h
        · exact .inl (by simp)
        · rcases ih h with h | h
          · exact .inl (List.mem_cons_of_mem _ h)
          · exact .inr h

theorem Memory.rising_write (font : Font) (m : Memory) (a : Nat) (b : Byte)
    (hm : m.Pairwise fun c d => c.1 < d.1) : (Memory.write font m a b).Pairwise fun c d => c.1 < d.1 := by
  have front : ∀ m : Memory, (m.Pairwise fun c d => c.1 < d.1) → (∀ d ∈ m, a < d.1) →
      (Memory.cell font a b ++ m).Pairwise fun c d => c.1 < d.1 := by
    intro m hm h
    unfold Memory.cell
    split
    · exact hm
    · exact List.pairwise_cons.mpr ⟨h, hm⟩
  induction m with
  | nil => simpa [Memory.write] using front [] hm (by simp)
  | cons c m ih =>
    obtain ⟨hc, hm'⟩ := List.pairwise_cons.mp hm
    simp only [Memory.write]
    split
    · rename_i hlt
      refine front _ hm fun d hd => ?_
      rcases List.mem_cons.mp hd with rfl | hd
      · exact hlt
      · exact hlt.trans (hc d hd)
    · split
      · rename_i _ heq
        exact front _ hm' (heq ▸ hc)
      · rename_i hlt hne
        refine List.pairwise_cons.mpr ⟨fun d hd => ?_, ih hm'⟩
        rcases Memory.key_mem_write font m a b d hd with hd | ⟨rfl, _⟩
        · exact hc d hd
        · show c.1 < a
          omega

/-- A write inside the 4096 bytes keeps the canonical form. -/
theorem Memory.wf_write (font : Font) (m : Memory) (a : Nat) (b : Byte) (ha : a < memSize)
    (hm : Memory.wf font m) : Memory.wf font (Memory.write font m a b) := by
  refine ⟨Memory.rising_write font m a b hm.1, fun c hc => ?_⟩
  rcases Memory.key_mem_write font m a b c hc with hc | ⟨rfl, hb⟩
  · exact hm.2 c hc
  · exact ⟨ha, hb⟩

/-- Reset memory has the canonical form. -/
theorem Memory.wf_nil (font : Font) : Memory.wf font [] := by simp [Memory.wf]

/-- Canonical memories that read alike are equal data. -/
theorem Memory.ext_of_wf (font : Font) (m n : Memory) (hm : Memory.wf font m) (hn : Memory.wf font n)
    (h : ∀ a, Memory.read font m a = Memory.read font n a) : m = n := by
  have below : ∀ (m : Memory) (a : Nat), (∀ c ∈ m, a < c.1) → Memory.read font m a = Memory.unlisted font a := by
    intro m a
    induction m with
    | nil => intro _; rfl
    | cons c m ih =>
      intro h
      have hc := h c (by simp)
      simp only [Memory.read, if_neg (show ¬ c.1 = a by omega)]
      exact ih fun d hd => h d (by simp [hd])
  have tail : ∀ (c : Host.Cell) (m : Memory), Memory.wf font (c :: m) → Memory.wf font m := fun c m hm =>
    ⟨(List.pairwise_cons.mp hm.1).2, fun d hd => hm.2 d (List.mem_cons_of_mem _ hd)⟩
  have head : ∀ (c : Host.Cell) (m : Memory), Memory.read font (c :: m) c.1 = c.2 := by
    intro c m; simp [Memory.read]
  -- an address listed first in one memory is listed in the other, and not before its first entry
  have first : ∀ (c : Host.Cell) (m n : Memory), Memory.wf font (c :: m) →
      (∀ a, Memory.read font (c :: m) a = Memory.read font n a) → ¬ ∀ d ∈ n, c.1 < d.1 := by
    intro c m n hm h hn
    have := h c.1
    rw [head, below n c.1 hn] at this
    exact (hm.2 c (by simp)).2 this
  induction m generalizing n with
  | nil =>
    cases n with
    | nil => rfl
    | cons d n => exact absurd (fun _ hc => by simp at hc) (first d n [] hn (fun a => (h a).symm))
  | cons c m ih =>
    cases n with
    | nil => exact absurd (fun _ hc => by simp at hc) (first c m [] hm h)
    | cons d n =>
      have hkey : c.1 = d.1 := by
        have above : ∀ (c d : Host.Cell) (n : Memory), Memory.wf font (d :: n) → c.1 < d.1 →
            ∀ e ∈ d :: n, c.1 < e.1 := by
          intro c d n hn hlt e he
          rcases List.mem_cons.mp he with rfl | he
          · exact hlt
          · exact hlt.trans ((List.pairwise_cons.mp hn.1).1 e he)
        rcases Nat.lt_trichotomy c.1 d.1 with hlt | heq | hlt
        · exact absurd (above c d n hn hlt) (first c m (d :: n) hm h)
        · exact heq
        · exact absurd (above d c m hm hlt) (first d n (c :: m) hn fun a => (h a).symm)
      have hval : c.2 = d.2 := by
        have := h c.1
        rwa [head, hkey, head] at this
      have hcd : c = d := Prod.ext hkey hval
      subst hcd
      refine congrArg (c :: ·) (ih n (tail c m hm) (tail c n hn) fun a => ?_)
      by_cases ha : c.1 = a
      · subst ha
        rw [below m _ (List.pairwise_cons.mp hm.1).1, below n _ (List.pairwise_cons.mp hn.1).1]
      · have := h a
        simpa [Memory.read, ha] using this

/-! ## One byte of the state's memory -/

theorem State.readByte_writeByte (s : State) (a p : Nat) (b : Byte) (hm : Memory.wf s.cfg.font s.mem) :
    (s.writeByte a b).readByte p = if p = a then b else s.readByte p :=
  Memory.read_write s.cfg.font s.mem a p b hm.1

theorem State.writeByte_wf (s : State) (a : Nat) (b : Byte) (ha : a < memSize) (hm : Memory.wf s.cfg.font s.mem) :
    Memory.wf (s.writeByte a b).cfg.font (s.writeByte a b).mem :=
  Memory.wf_write s.cfg.font s.mem a b ha hm

/-! ## Runs of bytes -/

/-- A run of writes changes memory alone. -/
theorem State.writeBytes_eq (s : State) (base : Nat) (bytes : List Byte) :
    s.writeBytes base bytes = { s with mem := (s.writeBytes base bytes).mem } := by
  induction bytes generalizing s base with
  | nil => rfl
  | cons b bs ih => rw [State.writeBytes, ih]; rfl

@[simp] theorem State.writeBytes_v (s : State) (base : Nat) (bytes : List Byte) : (s.writeBytes base bytes).v = s.v := by
  rw [State.writeBytes_eq s base bytes]

@[simp] theorem State.writeBytes_i (s : State) (base : Nat) (bytes : List Byte) : (s.writeBytes base bytes).i = s.i := by
  rw [State.writeBytes_eq s base bytes]

@[simp] theorem State.writeBytes_pc (s : State) (base : Nat) (bytes : List Byte) : (s.writeBytes base bytes).pc = s.pc := by
  rw [State.writeBytes_eq s base bytes]

@[simp] theorem State.writeBytes_stack (s : State) (base : Nat) (bytes : List Byte) : (s.writeBytes base bytes).stack = s.stack := by
  rw [State.writeBytes_eq s base bytes]

@[simp] theorem State.writeBytes_sp (s : State) (base : Nat) (bytes : List Byte) : (s.writeBytes base bytes).sp = s.sp := by
  rw [State.writeBytes_eq s base bytes]

@[simp] theorem State.writeBytes_dt (s : State) (base : Nat) (bytes : List Byte) : (s.writeBytes base bytes).dt = s.dt := by
  rw [State.writeBytes_eq s base bytes]

@[simp] theorem State.writeBytes_st (s : State) (base : Nat) (bytes : List Byte) : (s.writeBytes base bytes).st = s.st := by
  rw [State.writeBytes_eq s base bytes]

@[simp] theorem State.writeBytes_disp (s : State) (base : Nat) (bytes : List Byte) : (s.writeBytes base bytes).disp = s.disp := by
  rw [State.writeBytes_eq s base bytes]

@[simp] theorem State.writeBytes_redraw (s : State) (base : Nat) (bytes : List Byte) : (s.writeBytes base bytes).redraw = s.redraw := by
  rw [State.writeBytes_eq s base bytes]

@[simp] theorem State.writeBytes_key (s : State) (base : Nat) (bytes : List Byte) : (s.writeBytes base bytes).key = s.key := by
  rw [State.writeBytes_eq s base bytes]

@[simp] theorem State.writeBytes_fault (s : State) (base : Nat) (bytes : List Byte) : (s.writeBytes base bytes).fault = s.fault := by
  rw [State.writeBytes_eq s base bytes]

@[simp] theorem State.writeBytes_draws (s : State) (base : Nat) (bytes : List Byte) : (s.writeBytes base bytes).draws = s.draws := by
  rw [State.writeBytes_eq s base bytes]

@[simp] theorem State.writeBytes_cfg (s : State) (base : Nat) (bytes : List Byte) : (s.writeBytes base bytes).cfg = s.cfg := by
  rw [State.writeBytes_eq s base bytes]

@[simp] theorem State.writeBytes_reg (s : State) (base : Nat) (bytes : List Byte) (r : Nibble) :
    (s.writeBytes base bytes).reg r = s.reg r := by
  simp [State.reg]

/-- A run of writes inside the 4096 bytes keeps the canonical form. -/
theorem State.writeBytes_wf (s : State) (base : Nat) (bytes : List Byte) (hb : base + bytes.length ≤ memSize)
    (hm : Memory.wf s.cfg.font s.mem) : Memory.wf s.cfg.font (s.writeBytes base bytes).mem := by
  induction bytes generalizing s base with
  | nil => exact hm
  | cons b bs ih =>
    have hlen : (b :: bs).length = bs.length + 1 := rfl
    exact ih (s.writeByte base b) (base + 1) (by omega) (State.writeByte_wf s base b (by omega) hm)

/-- What a byte of memory reads as after a run of writes. -/
theorem State.readByte_writeBytes (s : State) (base : Nat) (bytes : List Byte) (p : Nat)
    (hm : s.mem.Pairwise fun c d => c.1 < d.1) :
    (s.writeBytes base bytes).readByte p =
      if base ≤ p then (bytes[p - base]?).getD (s.readByte p) else s.readByte p := by
  induction bytes generalizing s base with
  | nil => simp [State.writeBytes]
  | cons b bs ih =>
    rw [State.writeBytes, ih (s.writeByte base b) (base + 1) (Memory.rising_write _ _ _ _ hm)]
    have one : (s.writeByte base b).readByte p = if p = base then b else s.readByte p :=
      Memory.read_write s.cfg.font s.mem base p b hm
    rw [one]
    rcases Nat.lt_trichotomy p base with hp | hp | hp
    · simp [show ¬ base + 1 ≤ p by omega, show ¬ base ≤ p by omega, show ¬ p = base by omega]
    · subst hp; simp
    · obtain ⟨k, rfl⟩ : ∃ k, p = base + 1 + k := ⟨p - (base + 1), by omega⟩
      simp [show base + 1 + k - base = k + 1 by omega, show base + 1 + k - (base + 1) = k by omega,
        show ¬ base + 1 + k = base by omega, show base ≤ base + 1 + k by omega]

theorem State.readBytes_length (s : State) (base n : Nat) : (s.readBytes base n).length = n := by
  simp [State.readBytes]

theorem State.readBytes_getElem (s : State) (base n k : Nat) (h : k < (s.readBytes base n).length) :
    (s.readBytes base n)[k] = s.readByte (base + k) := by
  simp [State.readBytes]

/-! ## Address checks (R59-R61) -/

theorem firstFailure_eq_none (check : Nat → Option Fault) (base n : Nat) :
    firstFailure check base n = none ↔ ∀ k < n, check (base + k) = none := by
  simp [firstFailure, List.findSome?_eq_none_iff]

/-- The error reported is that of the lowest failing address. -/
theorem firstFailure_eq_some (check : Nat → Option Fault) (base n : Nat) (e : Fault) :
    firstFailure check base n = some e ↔
      ∃ k < n, check (base + k) = some e ∧ ∀ j < k, check (base + j) = none := by
  induction n with
  | zero => simp [firstFailure]
  | succ n ih =>
    have step : firstFailure check base (n + 1) = (firstFailure check base n).or (check (base + n)) := by
      simp only [firstFailure, List.range_succ, List.findSome?_append, List.findSome?_cons, List.findSome?_nil]
      cases check (base + n) <;> rfl
    rw [step]
    constructor
    · intro h
      rcases Option.or_eq_some_iff.mp h with h | ⟨hn, h⟩
      · obtain ⟨k, hk, h⟩ := ih.mp h
        exact ⟨k, by omega, h⟩
      · exact ⟨n, by omega, h, fun j hj => (firstFailure_eq_none check base n).mp hn j hj⟩
    · rintro ⟨k, hk, h, hlow⟩
      by_cases hkn : k = n
      · subst hkn
        rw [(firstFailure_eq_none check base k).mpr hlow, h]
        rfl
      · rw [ih.mpr ⟨k, by omega, h, hlow⟩]
        rfl

theorem State.checkRead_eq_none (s : State) (a : Nat) : s.checkRead a = none ↔ a < memSize := by
  simp [State.checkRead, memSize]
  omega

theorem State.checkWrite_eq_none (s : State) (a : Nat) :
    s.checkWrite a = none ↔ a < memSize ∧ ¬ (a < progBase ∧ s.cfg.reservedWrite = .fault) := by
  unfold State.checkWrite memSize
  split
  · simp; omega
  · split
    · simp_all
    · simp_all
      omega

/-- Everything `withLoad` can do. -/
theorem State.withLoad_cases (s : State) (base n : Nat) (k : List Byte → State) :
    (base + n ≤ memSize ∨ n = 0) ∧ s.withLoad base n k = .next (k (s.readBytes base n)) ∨
      (memSize < base + n ∧ n ≠ 0) ∧
        s.withLoad base n k = raise (.outOfBounds .read (max base 0x1000) s.pc) s := by
  unfold State.withLoad
  by_cases h : base + n ≤ memSize ∨ n = 0
  · left
    refine ⟨h, ?_⟩
    rw [(firstFailure_eq_none s.checkRead base n).mpr fun j hj => (s.checkRead_eq_none _).mpr (by omega)]
  · right
    refine ⟨by omega, ?_⟩
    have : firstFailure s.checkRead base n = some (.outOfBounds .read (max base 0x1000) s.pc) := by
      refine (firstFailure_eq_some _ _ _ _).mpr ⟨max base 0x1000 - base, by unfold memSize at h; omega, ?_, ?_⟩
      · rw [show base + (max base 0x1000 - base) = max base 0x1000 by omega]
        unfold State.checkRead
        rw [if_pos (by omega)]
      · intro j hj
        exact (s.checkRead_eq_none _).mpr (by unfold memSize; omega)
    rw [this]

/-- Everything `withStore` can do, for at least one byte. -/
theorem State.withStore_cases (s : State) (base : Nat) (bytes : List Byte) (k : State → State) (hb : bytes ≠ []) :
    (base + bytes.length ≤ memSize ∧ ¬ (base < progBase ∧ s.cfg.reservedWrite = .fault)) ∧
        s.withStore base bytes k = .next (k (s.writeBytes base bytes)) ∨
      (base < progBase ∧ s.cfg.reservedWrite = .fault) ∧
        s.withStore base bytes k = raise (.outOfBounds .reservedWrite base s.pc) s ∨
      (memSize < base + bytes.length ∧ ¬ (base < progBase ∧ s.cfg.reservedWrite = .fault)) ∧
        s.withStore base bytes k = raise (.outOfBounds .write (max base 0x1000) s.pc) s := by
  have hpos : 0 < bytes.length := List.length_pos_iff.mpr hb
  unfold State.withStore
  by_cases hr : base < progBase ∧ s.cfg.reservedWrite = .fault
  · right; left
    refine ⟨hr, ?_⟩
    have : firstFailure s.checkWrite base bytes.length = some (.outOfBounds .reservedWrite base s.pc) := by
      refine (firstFailure_eq_some _ _ _ _).mpr ⟨0, hpos, ?_, by simp⟩
      unfold State.checkWrite
      have := hr.1
      rw [Nat.add_zero, if_neg (by unfold progBase at this; omega), if_pos hr]
    rw [this]
  · by_cases h : base + bytes.length ≤ memSize
    · left
      refine ⟨⟨h, hr⟩, ?_⟩
      rw [(firstFailure_eq_none s.checkWrite base bytes.length).mpr fun j hj =>
        (s.checkWrite_eq_none _).mpr ⟨by omega, fun hc => hr ⟨by omega, hc.2⟩⟩]
    · right; right
      refine ⟨⟨by omega, hr⟩, ?_⟩
      have : firstFailure s.checkWrite base bytes.length = some (.outOfBounds .write (max base 0x1000) s.pc) := by
        refine (firstFailure_eq_some _ _ _ _).mpr ⟨max base 0x1000 - base, by unfold memSize at h; omega, ?_, ?_⟩
        · rw [show base + (max base 0x1000 - base) = max base 0x1000 by omega]
          unfold State.checkWrite
          rw [if_pos (by omega)]
        · intro j hj
          exact (s.checkWrite_eq_none _).mpr ⟨by unfold memSize; omega, fun hc => hr ⟨by omega, hc.2⟩⟩
      rw [this]

end Sys2Proof.Machine
end

