-- ==== Sys2Proof/Laws/PerInstr.lean ====
section
/-! SUPPORT. One lemma for each constructor of Instr: its word matches its own row of the opcode table, under either value of
`CFG_STRICT_DECODE` (30_encoding.md R84, R86). -/

namespace Sys2Proof.Laws.EncodeMatchesTable

/-- The row of the table with the instruction's mnemonic accepts the instruction's word. -/
def Statement (i : Instr) : Prop :=
  ∀ strict : Bool, ∃ r ∈ opcodeRows, r.mnemonic = i.mnemonic ∧ r.accepts strict (encode i) = true

/-- A row found in the table by its position settles the statement, once its two masks have been tried. -/
theorem of_row (i : Instr) (k : Fin 34) (hm : (opcodeRows[k.val]'k.isLt).mnemonic = i.mnemonic)
    (hs : encode i &&& (opcodeRows[k.val]'k.isLt).mask = (opcodeRows[k.val]'k.isLt).pattern)
    (hl : encode i &&& (opcodeRows[k.val]'k.isLt).maskLenient = (opcodeRows[k.val]'k.isLt).pattern) : Statement i := by
  intro strict
  refine ⟨_, List.getElem_mem k.isLt, hm, ?_⟩
  cases strict
  · simpa [OpcodeRow.accepts] using hl
  · simpa [OpcodeRow.accepts] using hs

theorem cls : Statement (.cls) :=
  of_row .cls 0 rfl (by decide) (by decide)

theorem ret : Statement (.ret) :=
  of_row .ret 1 rfl (by decide) (by decide)

theorem jp (nnn : Addr) : Statement (.jp nnn) :=
  of_row (.jp nnn) 2 rfl
    ((wordFNNN_and _ 0xf _ 0x0).trans (by simp; decide))
    ((wordFNNN_and _ 0xf _ 0x0).trans (by simp; decide))

theorem call (nnn : Addr) : Statement (.call nnn) :=
  of_row (.call nnn) 3 rfl
    ((wordFNNN_and _ 0xf _ 0x0).trans (by simp; decide))
    ((wordFNNN_and _ 0xf _ 0x0).trans (by simp; decide))

theorem seImm (x : Nibble) (nn : Byte) : Statement (.seImm x nn) :=
  of_row (.seImm x nn) 4 rfl
    ((wordFXNN_and _ _ 0xf 0x0 _ 0x0).trans (by simp; decide))
    ((wordFXNN_and _ _ 0xf 0x0 _ 0x0).trans (by simp; decide))

theorem sneImm (x : Nibble) (nn : Byte) : Statement (.sneImm x nn) :=
  of_row (.sneImm x nn) 5 rfl
    ((wordFXNN_and _ _ 0xf 0x0 _ 0x0).trans (by simp; decide))
    ((wordFXNN_and _ _ 0xf 0x0 _ 0x0).trans (by simp; decide))

theorem seReg (x y : Nibble) : Statement (.seReg x y) :=
  of_row (.seReg x y) 6 rfl
    ((wordFXYN_and _ _ _ _ 0xf 0x0 0x0 0xf).trans (by simp; decide))
    ((wordFXYN_and _ _ _ _ 0xf 0x0 0x0 0x0).trans (by simp; decide))

theorem ldImm (x : Nibble) (nn : Byte) : Statement (.ldImm x nn) :=
  of_row (.ldImm x nn) 7 rfl
    ((wordFXNN_and _ _ 0xf 0x0 _ 0x0).trans (by simp; decide))
    ((wordFXNN_and _ _ 0xf 0x0 _ 0x0).trans (by simp; decide))

theorem addImm (x : Nibble) (nn : Byte) : Statement (.addImm x nn) :=
  of_row (.addImm x nn) 8 rfl
    ((wordFXNN_and _ _ 0xf 0x0 _ 0x0).trans (by simp; decide))
    ((wordFXNN_and _ _ 0xf 0x0 _ 0x0).trans (by simp; decide))

theorem ldReg (x y : Nibble) : Statement (.ldReg x y) :=
  of_row (.ldReg x y) 9 rfl
    ((wordFXYN_and _ _ _ _ 0xf 0x0 0x0 0xf).trans (by simp; decide))
    ((wordFXYN_and _ _ _ _ 0xf 0x0 0x0 0xf).trans (by simp; decide))

theorem or (x y : Nibble) : Statement (.or x y) :=
  of_row (.or x y) 10 rfl
    ((wordFXYN_and _ _ _ _ 0xf 0x0 0x0 0xf).trans (by simp; decide))
    ((wordFXYN_and _ _ _ _ 0xf 0x0 0x0 0xf).trans (by simp; decide))

theorem and (x y : Nibble) : Statement (.and x y) :=
  of_row (.and x y) 11 rfl
    ((wordFXYN_and _ _ _ _ 0xf 0x0 0x0 0xf).trans (by simp; decide))
    ((wordFXYN_and _ _ _ _ 0xf 0x0 0x0 0xf).trans (by simp; decide))

theorem xor (x y : Nibble) : Statement (.xor x y) :=
  of_row (.xor x y) 12 rfl
    ((wordFXYN_and _ _ _ _ 0xf 0x0 0x0 0xf).trans (by simp; decide))
    ((wordFXYN_and _ _ _ _ 0xf 0x0 0x0 0xf).trans (by simp; decide))

theorem addReg (x y : Nibble) : Statement (.addReg x y) :=
  of_row (.addReg x y) 13 rfl
    ((wordFXYN_and _ _ _ _ 0xf 0x0 0x0 0xf).trans (by simp; decide))
    ((wordFXYN_and _ _ _ _ 0xf 0x0 0x0 0xf).trans (by simp; decide))

theorem sub (x y : Nibble) : Statement (.sub x y) :=
  of_row (.sub x y) 14 rfl
    ((wordFXYN_and _ _ _ _ 0xf 0x0 0x0 0xf).trans (by simp; decide))
    ((wordFXYN_and _ _ _ _ 0xf 0x0 0x0 0xf).trans (by simp; decide))

theorem shr (x y : Nibble) : Statement (.shr x y) :=
  of_row (.shr x y) 15 rfl
    ((wordFXYN_and _ _ _ _ 0xf 0x0 0x0 0xf).trans (by simp; decide))
    ((wordFXYN_and _ _ _ _ 0xf 0x0 0x0 0xf).trans (by simp; decide))

theorem subn (x y : Nibble) : Statement (.subn x y) :=
  of_row (.subn x y) 16 rfl
    ((wordFXYN_and _ _ _ _ 0xf 0x0 0x0 0xf).trans (by simp; decide))
    ((wordFXYN_and _ _ _ _ 0xf 0x0 0x0 0xf).trans (by simp; decide))

theorem shl (x y : Nibble) : Statement (.shl x y) :=
  of_row (.shl x y) 17 rfl
    ((wordFXYN_and _ _ _ _ 0xf 0x0 0x0 0xf).trans (by simp; decide))
    ((wordFXYN_and _ _ _ _ 0xf 0x0 0x0 0xf).trans (by simp; decide))

theorem sneReg (x y : Nibble) : Statement (.sneReg x y) :=
  of_row (.sneReg x y) 18 rfl
    ((wordFXYN_and _ _ _ _ 0xf 0x0 0x0 0xf).trans (by simp; decide))
    ((wordFXYN_and _ _ _ _ 0xf 0x0 0x0 0x0).trans (by simp; decide))

theorem ldI (nnn : Addr) : Statement (.ldI nnn) :=
  of_row (.ldI nnn) 19 rfl
    ((wordFNNN_and _ 0xf _ 0x0).trans (by simp; decide))
    ((wordFNNN_and _ 0xf _ 0x0).trans (by simp; decide))

theorem jpV0 (nnn : Addr) : Statement (.jpV0 nnn) :=
  of_row (.jpV0 nnn) 20 rfl
    ((wordFNNN_and _ 0xf _ 0x0).trans (by simp; decide))
    ((wordFNNN_and _ 0xf _ 0x0).trans (by simp; decide))

theorem rnd (x : Nibble) (nn : Byte) : Statement (.rnd x nn) :=
  of_row (.rnd x nn) 21 rfl
    ((wordFXNN_and _ _ 0xf 0x0 _ 0x0).trans (by simp; decide))
    ((wordFXNN_and _ _ 0xf 0x0 _ 0x0).trans (by simp; decide))

theorem drw (x y n : Nibble) : Statement (.drw x y n) :=
  of_row (.drw x y n) 22 rfl
    ((wordFXYN_and _ _ _ _ 0xf 0x0 0x0 0x0).trans (by simp; decide))
    ((wordFXYN_and _ _ _ _ 0xf 0x0 0x0 0x0).trans (by simp; decide))

theorem skp (x : Nibble) : Statement (.skp x) :=
  of_row (.skp x) 23 rfl
    ((wordFXNN_and _ _ 0xf 0x0 _ 0xff).trans (by simp; decide))
    ((wordFXNN_and _ _ 0xf 0x0 _ 0xff).trans (by simp; decide))

theorem sknp (x : Nibble) : Statement (.sknp x) :=
  of_row (.sknp x) 24 rfl
    ((wordFXNN_and _ _ 0xf 0x0 _ 0xff).trans (by simp; decide))
    ((wordFXNN_and _ _ 0xf 0x0 _ 0xff).trans (by simp; decide))

theorem ldVDt (x : Nibble) : Statement (.ldVDt x) :=
  of_row (.ldVDt x) 25 rfl
    ((wordFXNN_and _ _ 0xf 0x0 _ 0xff).trans (by simp; decide))
    ((wordFXNN_and _ _ 0xf 0x0 _ 0xff).trans (by simp; decide))

theorem ldVK (x : Nibble) : Statement (.ldVK x) :=
  of_row (.ldVK x) 26 rfl
    ((wordFXNN_and _ _ 0xf 0x0 _ 0xff).trans (by simp; decide))
    ((wordFXNN_and _ _ 0xf 0x0 _ 0xff).trans (by simp; decide))

theorem ldDtV (x : Nibble) : Statement (.ldDtV x) :=
  of_row (.ldDtV x) 27 rfl
    ((wordFXNN_and _ _ 0xf 0x0 _ 0xff).trans (by simp; decide))
    ((wordFXNN_and _ _ 0xf 0x0 _ 0xff).trans (by simp; decide))

theorem ldStV (x : Nibble) : Statement (.ldStV x) :=
  of_row (.ldStV x) 28 rfl
    ((wordFXNN_and _ _ 0xf 0x0 _ 0xff).trans (by simp; decide))
    ((wordFXNN_and _ _ 0xf 0x0 _ 0xff).trans (by simp; decide))

theorem addI (x : Nibble) : Statement (.addI x) :=
  of_row (.addI x) 29 rfl
    ((wordFXNN_and _ _ 0xf 0x0 _ 0xff).trans (by simp; decide))
    ((wordFXNN_and _ _ 0xf 0x0 _ 0xff).trans (by simp; decide))

theorem ldF (x : Nibble) : Statement (.ldF x) :=
  of_row (.ldF x) 30 rfl
    ((wordFXNN_and _ _ 0xf 0x0 _ 0xff).trans (by simp; decide))
    ((wordFXNN_and _ _ 0xf 0x0 _ 0xff).trans (by simp; decide))

theorem ldB (x : Nibble) : Statement (.ldB x) :=
  of_row (.ldB x) 31 rfl
    ((wordFXNN_and _ _ 0xf 0x0 _ 0xff).trans (by simp; decide))
    ((wordFXNN_and _ _ 0xf 0x0 _ 0xff).trans (by simp; decide))

theorem ldMemV (x : Nibble) : Statement (.ldMemV x) :=
  of_row (.ldMemV x) 32 rfl
    ((wordFXNN_and _ _ 0xf 0x0 _ 0xff).trans (by simp; decide))
    ((wordFXNN_and _ _ 0xf 0x0 _ 0xff).trans (by simp; decide))

theorem ldVMem (x : Nibble) : Statement (.ldVMem x) :=
  of_row (.ldVMem x) 33 rfl
    ((wordFXNN_and _ _ 0xf 0x0 _ 0xff).trans (by simp; decide))
    ((wordFXNN_and _ _ 0xf 0x0 _ 0xff).trans (by simp; decide))

end Sys2Proof.Laws.EncodeMatchesTable
end

