-- ==== Sys2Proof/Laws/Registers.lean ====
section
/-! SUPPORT. The laws of the register file (10_state.md R21), the call stack and the flags. -/

namespace Sys2Proof.Machine

/-- A read after a write of V: the new byte in the register written, the old byte in every other. -/
theorem State.reg_setReg (s : State) (x y : Nibble) (b : Byte) :
    (s.setReg x b).reg y = if y = x then b else s.reg y := by
  simp only [State.reg, State.setReg, Vector.getElem_set]
  have : x.toNat = y.toNat ↔ y = x := by rw [BitVec.toNat_inj, eq_comm]
  simp only [this]

@[simp] theorem State.reg_setReg_same (s : State) (x : Nibble) (b : Byte) : (s.setReg x b).reg x = b := by
  simp [State.reg_setReg]

theorem State.reg_setReg_other (s : State) (x y : Nibble) (b : Byte) (h : y ≠ x) : (s.setReg x b).reg y = s.reg y := by
  simp [State.reg_setReg, h]

/-- R141: what V holds after a result and then a flag are written. -/
theorem State.reg_setResultAndFlag (s : State) (x y : Nibble) (r : Byte) (f : Bool) :
    (s.setResultAndFlag x r f).reg y =
      if y = flagReg then flagByte f else if y = x then r else s.reg y := by
  simp [State.setResultAndFlag, State.setFlag, State.reg_setReg]

theorem State.reg_setFlag (s : State) (y : Nibble) (f : Bool) :
    (s.setFlag f).reg y = if y = flagReg then flagByte f else s.reg y := by
  simp [State.setFlag, State.reg_setReg]

/-- Writing V changes V alone. -/
theorem State.setReg_eq (s : State) (x : Nibble) (b : Byte) : s.setReg x b = { s with v := (s.setReg x b).v } := rfl

/-- Writing VF changes V alone. -/
theorem State.setFlag_eq (s : State) (f : Bool) : s.setFlag f = { s with v := (s.setFlag f).v } := rfl

/-- Writing a result and a flag changes V alone. -/
theorem State.setResultAndFlag_eq (s : State) (x : Nibble) (r : Byte) (f : Bool) :
    s.setResultAndFlag x r f = { s with v := (s.setResultAndFlag x r f).v } := rfl

/-- Writing several registers changes V alone. -/
theorem State.setRegs_eq (s : State) (k : Nat) (bytes : List Byte) :
    s.setRegs k bytes = { s with v := (s.setRegs k bytes).v } := by
  induction bytes generalizing s k with
  | nil => rfl
  | cons b bs ih => rw [State.setRegs, ih]; rfl

/-- What V holds after several registers are written. -/
theorem State.reg_setRegs (s : State) (k : Nat) (bytes : List Byte) (y : Nibble) (h : k + bytes.length ≤ 16) :
    (s.setRegs k bytes).reg y =
      if k ≤ y.toNat then (bytes[y.toNat - k]?).getD (s.reg y) else s.reg y := by
  induction bytes generalizing s k with
  | nil => simp [State.setRegs]
  | cons b bs ih =>
    have hlen : (b :: bs).length = bs.length + 1 := rfl
    rw [State.setRegs, ih (s.setReg _ b) (k + 1) (by omega), State.reg_setReg]
    have hk : y = BitVec.ofNat 4 k ↔ y.toNat = k := by
      rw [← BitVec.toNat_inj, BitVec.toNat_ofNat, Nat.mod_eq_of_lt (by omega)]
    simp only [hk]
    rcases Nat.lt_trichotomy y.toNat k with hy | hy | hy
    · simp [show ¬ k + 1 ≤ y.toNat by omega, show ¬ k ≤ y.toNat by omega, show ¬ y.toNat = k by omega]
    · simp [hy]
    · obtain ⟨j, hj⟩ : ∃ j, y.toNat = k + 1 + j := ⟨y.toNat - (k + 1), by omega⟩
      simp [hj, show k + 1 + j - k = j + 1 by omega, show k + 1 + j - (k + 1) = j by omega,
        show ¬ k + 1 + j = k by omega, show k ≤ k + 1 + j by omega]

/-! ## The fields that register writes leave alone -/

@[simp] theorem State.setRegs_i (s : State) (k : Nat) (bytes : List Byte) : (s.setRegs k bytes).i = s.i := by
  rw [State.setRegs_eq s k bytes]

@[simp] theorem State.setRegs_pc (s : State) (k : Nat) (bytes : List Byte) : (s.setRegs k bytes).pc = s.pc := by
  rw [State.setRegs_eq s k bytes]

@[simp] theorem State.setRegs_stack (s : State) (k : Nat) (bytes : List Byte) : (s.setRegs k bytes).stack = s.stack := by
  rw [State.setRegs_eq s k bytes]

@[simp] theorem State.setRegs_sp (s : State) (k : Nat) (bytes : List Byte) : (s.setRegs k bytes).sp = s.sp := by
  rw [State.setRegs_eq s k bytes]

@[simp] theorem State.setRegs_dt (s : State) (k : Nat) (bytes : List Byte) : (s.setRegs k bytes).dt = s.dt := by
  rw [State.setRegs_eq s k bytes]

@[simp] theorem State.setRegs_st (s : State) (k : Nat) (bytes : List Byte) : (s.setRegs k bytes).st = s.st := by
  rw [State.setRegs_eq s k bytes]

@[simp] theorem State.setRegs_mem (s : State) (k : Nat) (bytes : List Byte) : (s.setRegs k bytes).mem = s.mem := by
  rw [State.setRegs_eq s k bytes]

@[simp] theorem State.setRegs_disp (s : State) (k : Nat) (bytes : List Byte) : (s.setRegs k bytes).disp = s.disp := by
  rw [State.setRegs_eq s k bytes]

@[simp] theorem State.setRegs_redraw (s : State) (k : Nat) (bytes : List Byte) : (s.setRegs k bytes).redraw = s.redraw := by
  rw [State.setRegs_eq s k bytes]

@[simp] theorem State.setRegs_key (s : State) (k : Nat) (bytes : List Byte) : (s.setRegs k bytes).key = s.key := by
  rw [State.setRegs_eq s k bytes]

@[simp] theorem State.setRegs_fault (s : State) (k : Nat) (bytes : List Byte) : (s.setRegs k bytes).fault = s.fault := by
  rw [State.setRegs_eq s k bytes]

@[simp] theorem State.setRegs_draws (s : State) (k : Nat) (bytes : List Byte) : (s.setRegs k bytes).draws = s.draws := by
  rw [State.setRegs_eq s k bytes]

@[simp] theorem State.setRegs_cfg (s : State) (k : Nat) (bytes : List Byte) : (s.setRegs k bytes).cfg = s.cfg := by
  rw [State.setRegs_eq s k bytes]

@[simp] theorem State.setFlag_i (s : State) (b : Bool) : (s.setFlag b).i = s.i :=
  rfl

@[simp] theorem State.setFlag_pc (s : State) (b : Bool) : (s.setFlag b).pc = s.pc :=
  rfl

@[simp] theorem State.setFlag_stack (s : State) (b : Bool) : (s.setFlag b).stack = s.stack :=
  rfl

@[simp] theorem State.setFlag_sp (s : State) (b : Bool) : (s.setFlag b).sp = s.sp :=
  rfl

@[simp] theorem State.setFlag_dt (s : State) (b : Bool) : (s.setFlag b).dt = s.dt :=
  rfl

@[simp] theorem State.setFlag_st (s : State) (b : Bool) : (s.setFlag b).st = s.st :=
  rfl

@[simp] theorem State.setFlag_mem (s : State) (b : Bool) : (s.setFlag b).mem = s.mem :=
  rfl

@[simp] theorem State.setFlag_disp (s : State) (b : Bool) : (s.setFlag b).disp = s.disp :=
  rfl

@[simp] theorem State.setFlag_redraw (s : State) (b : Bool) : (s.setFlag b).redraw = s.redraw :=
  rfl

@[simp] theorem State.setFlag_key (s : State) (b : Bool) : (s.setFlag b).key = s.key :=
  rfl

@[simp] theorem State.setFlag_fault (s : State) (b : Bool) : (s.setFlag b).fault = s.fault :=
  rfl

@[simp] theorem State.setFlag_draws (s : State) (b : Bool) : (s.setFlag b).draws = s.draws :=
  rfl

@[simp] theorem State.setFlag_cfg (s : State) (b : Bool) : (s.setFlag b).cfg = s.cfg :=
  rfl

@[simp] theorem State.setResultAndFlag_i (s : State) (x : Nibble) (r : Byte) (b : Bool) : (s.setResultAndFlag x r b).i = s.i :=
  rfl

@[simp] theorem State.setResultAndFlag_pc (s : State) (x : Nibble) (r : Byte) (b : Bool) : (s.setResultAndFlag x r b).pc = s.pc :=
  rfl

@[simp] theorem State.setResultAndFlag_stack (s : State) (x : Nibble) (r : Byte) (b : Bool) : (s.setResultAndFlag x r b).stack = s.stack :=
  rfl

@[simp] theorem State.setResultAndFlag_sp (s : State) (x : Nibble) (r : Byte) (b : Bool) : (s.setResultAndFlag x r b).sp = s.sp :=
  rfl

@[simp] theorem State.setResultAndFlag_dt (s : State) (x : Nibble) (r : Byte) (b : Bool) : (s.setResultAndFlag x r b).dt = s.dt :=
  rfl

@[simp] theorem State.setResultAndFlag_st (s : State) (x : Nibble) (r : Byte) (b : Bool) : (s.setResultAndFlag x r b).st = s.st :=
  rfl

@[simp] theorem State.setResultAndFlag_mem (s : State) (x : Nibble) (r : Byte) (b : Bool) : (s.setResultAndFlag x r b).mem = s.mem :=
  rfl

@[simp] theorem State.setResultAndFlag_disp (s : State) (x : Nibble) (r : Byte) (b : Bool) : (s.setResultAndFlag x r b).disp = s.disp :=
  rfl

@[simp] theorem State.setResultAndFlag_redraw (s : State) (x : Nibble) (r : Byte) (b : Bool) : (s.setResultAndFlag x r b).redraw = s.redraw :=
  rfl

@[simp] theorem State.setResultAndFlag_key (s : State) (x : Nibble) (r : Byte) (b : Bool) : (s.setResultAndFlag x r b).key = s.key :=
  rfl

@[simp] theorem State.setResultAndFlag_fault (s : State) (x : Nibble) (r : Byte) (b : Bool) : (s.setResultAndFlag x r b).fault = s.fault :=
  rfl

@[simp] theorem State.setResultAndFlag_draws (s : State) (x : Nibble) (r : Byte) (b : Bool) : (s.setResultAndFlag x r b).draws = s.draws :=
  rfl

@[simp] theorem State.setResultAndFlag_cfg (s : State) (x : Nibble) (r : Byte) (b : Bool) : (s.setResultAndFlag x r b).cfg = s.cfg :=
  rfl

@[simp] theorem State.setFlag_readByte (s : State) (b : Bool) (p : Nat) : (s.setFlag b).readByte p = s.readByte p :=
  rfl

@[simp] theorem State.setResultAndFlag_readByte (s : State) (x : Nibble) (r : Byte) (b : Bool) (p : Nat) :
    (s.setResultAndFlag x r b).readByte p = s.readByte p :=
  rfl

@[simp] theorem State.setRegs_readByte (s : State) (k : Nat) (bytes : List Byte) (p : Nat) :
    (s.setRegs k bytes).readByte p = s.readByte p := by
  simp [State.readByte]

/-! ## V0 to V[x] -/

theorem State.regsUpTo_length (s : State) (x : Nibble) : (s.regsUpTo x).length = x.toNat + 1 := by
  simp [State.regsUpTo]

theorem State.regsUpTo_getElem (s : State) (x : Nibble) (k : Nat) (h : k < (s.regsUpTo x).length) :
    (s.regsUpTo x)[k] = s.reg (BitVec.ofNat 4 k) := by
  simp [State.regsUpTo]

theorem State.regsUpTo_ne_nil (s : State) (x : Nibble) : s.regsUpTo x ≠ [] :=
  List.ne_nil_of_length_pos (by rw [State.regsUpTo_length]; omega)

/-- V is known when every register is. -/
theorem State.v_ext (s t : State) (h : ∀ r, s.reg r = t.reg r) : s.v = t.v := by
  refine Vector.ext fun k hk => ?_
  have hk' : (BitVec.ofNat 4 k).toNat = k := Nat.mod_eq_of_lt (by omega)
  have := h (BitVec.ofNat 4 k)
  simpa only [State.reg, hk'] using this

/-- The frame that a pop reads right after a push is the one pushed. -/
theorem State.top_push (s : State) (a : Word) (h : s.sp.val < 16) (h' : (s.push a h).sp.val ≠ 0) :
    (s.push a h).top h' = a := by
  simp [State.top]

end Sys2Proof.Machine
end

