-- ==== Sys2Proof/Laws/Step.lean ====
section
/-! SUPPORT. What a meaning can do and what a step can do, said once (30_encoding.md R92; 60_exceptions.md R272, R273). -/

namespace Sys2Proof.Machine

/-- Every instruction answers a next state, which is one of two: the state it began with and an error latched, and nothing
else changed (R272); or a state with the old latch, in which no key and no parameter has changed. -/
theorem exec_cases (i : Instr) (s : State) :
    (∃ e, exec i s = .next { s with fault := some e }) ∨
      ∃ t, exec i s = .next t ∧ t.fault = s.fault ∧ t.key = s.key ∧ t.cfg = s.cfg := by
  cases i with
  | ret =>
    simp only [exec, execRet]
    split
    · exact .inl ⟨_, rfl⟩
    · exact .inr ⟨_, rfl, rfl, rfl, rfl⟩
  | call nnn =>
    simp only [exec, execCall]
    split
    · exact .inr ⟨_, rfl, rfl, rfl, rfl⟩
    · exact .inl ⟨_, rfl⟩
  | ldVK x =>
    simp only [exec, execLdVK]
    split <;> exact .inr ⟨_, rfl, rfl, rfl, rfl⟩
  | drw x y n =>
    simp only [exec, execDrw]
    rcases s.withLoad_cases s.dataBase n.toNat _ with ⟨_, h⟩ | ⟨_, h⟩
    · exact .inr ⟨_, h, rfl, rfl, rfl⟩
    · exact .inl ⟨_, h⟩
  | ldVMem x =>
    simp only [exec, execLdVMem]
    rcases s.withLoad_cases s.dataBase (x.toNat + 1) _ with ⟨_, h⟩ | ⟨_, h⟩
    · exact .inr ⟨_, h, by simp, by simp, by simp⟩
    · exact .inl ⟨_, h⟩
  | ldB x =>
    simp only [exec, execLdB]
    rcases s.withStore_cases s.dataBase (bcdDigits (s.reg x)) State.advance (by simp [bcdDigits]) with
      ⟨_, h⟩ | ⟨_, h⟩ | ⟨_, h⟩
    · exact .inr ⟨_, h, by simp, by simp, by simp⟩
    · exact .inl ⟨_, h⟩
    · exact .inl ⟨_, h⟩
  | ldMemV x =>
    simp only [exec, execLdMemV]
    rcases s.withStore_cases s.dataBase (s.regsUpTo x) (fun t => (t.setI (t.i + x.setWidth 16 + 1)).advance)
      (s.regsUpTo_ne_nil x) with ⟨_, h⟩ | ⟨_, h⟩ | ⟨_, h⟩
    · exact .inr ⟨_, h, by simp, by simp, by simp⟩
    · exact .inl ⟨_, h⟩
    · exact .inl ⟨_, h⟩
  | _ => exact .inr ⟨_, rfl, rfl, rfl, rfl⟩

/-- A halted core answers the stored error (R273). -/
theorem step_of_fault (s : State) (e : Fault) (h : s.fault = some e) : step s = .fault e := by
  simp [step, h]

/-- An error of the fetch or of decode is taken (R272). -/
theorem step_of_error (s : State) (e : Fault) (h : s.fault = none) (hd : fetchDecode s = .error e) :
    step s = .next { s with fault := some e } := by
  simp [step, h, hd, raise]

/-- The decoded instruction runs, and the step ends. -/
theorem step_of_ok (s : State) (i : Instr) (h : s.fault = none) (hd : fetchDecode s = .ok i) :
    step s = endStep (exec i s) := by
  simp [step, h, hd]

/-- Everything a step can do. -/
theorem step_cases (s : State) :
    (∃ e, s.fault = some e ∧ step s = .fault e) ∨
    (∃ e, s.fault = none ∧ fetchDecode s = .error e ∧ step s = .next { s with fault := some e }) ∨
    (∃ i e, s.fault = none ∧ fetchDecode s = .ok i ∧ exec i s = .next { s with fault := some e } ∧
      step s = .next { s with fault := some e }) ∨
    (∃ i u, s.fault = none ∧ fetchDecode s = .ok i ∧ exec i s = .next u ∧ u.fault = none ∧
      step s = .next u.timerUpdate) := by
  cases h : s.fault with
  | some e => exact .inl ⟨e, rfl, step_of_fault s e h⟩
  | none =>
    cases hd : fetchDecode s with
    | error e => exact .inr (.inl ⟨e, rfl, rfl, step_of_error s e h hd⟩)
    | ok i =>
      rcases exec_cases i s with ⟨e, he⟩ | ⟨u, hu, hf, _, _⟩
      · exact .inr (.inr (.inl ⟨i, e, rfl, rfl, he, by rw [step_of_ok s i h hd, he]; simp [endStep]⟩))
      · have hf : u.fault = none := hf.trans h
        exact .inr (.inr (.inr ⟨i, u, rfl, rfl, hu, hf, by rw [step_of_ok s i h hd, hu]; simp [endStep, hf]⟩))

end Sys2Proof.Machine
end

