-- ==== Sys2Proof/Tests/Slice0.lean ====
section
/-! SUPPORT. Tests on fixed values, each of one step, with the expected values taken from the spec (95_test_vectors.md, by the
vector's name, unless the comment says otherwise); and, for each statement that has hypotheses, a state that meets them. -/

namespace Sys2Proof.Tests

open Sys2Proof Sys2Proof.Machine

/-! ## Helpers -/

/-- The reset state with a word at 0x200, where the next fetch reads it. -/
def start (w : Word) : State := State.reset.placeWord w

/-- The next state, where there is one. -/
def nextOf : Result → Option State
  | .next t => some t
  | _ => none

/-- What a step from `s` leaves, as `look` sees it. -/
def after {α : Type} (s : State) (look : State → α) : Option α := (nextOf (step s)).map look

/-- The state with the configuration changed. -/
def withConfig (s : State) (f : Config → Config) : State := { s with cfg := f s.cfg }

/-- `sp` set, and the top frame with it. -/
def withFrame (s : State) (top : Word) : State := { s with sp := 1, stack := s.stack.set 0 top }

/-- A key pressed. -/
def pressed (s : State) (k : Nibble) : State := s.writeKey k true

/-! ## Well-formedness: each check refuses an ill-formed term (30_encoding.md R87; 70_reset_and_hazards.md R314) -/

theorem test_illformed_family0 : wellFormedWord true 0x01E0 = false ∧ wellFormedWord false 0x0123 = false := by decide
theorem test_illformed_families_5_9 : wellFormedWord true 0x5121 = false ∧ wellFormedWord true 0x9AB3 = false := by decide
theorem test_illformed_family8 : wellFormedWord false 0x8008 = false ∧ wellFormedWord false 0x800F = false := by decide
theorem test_illformed_familyE : wellFormedWord false 0xE19F = false := by decide
theorem test_illformed_familyF : wellFormedWord false 0xF166 = false := by decide
theorem test_wellformed_when_lenient : wellFormedWord false 0x01E0 = true ∧ wellFormedWord false 0x5127 = true := by decide

/-- S9: 3584 bytes are an image, 3585 are not. -/
theorem test_image_length :
    wellFormedImage (List.replicate 3584 0) = true ∧ wellFormedImage (List.replicate 3585 0) = false :=
  ⟨decide_eq_true (by rw [List.length_replicate]; decide), decide_eq_false (by rw [List.length_replicate]; decide)⟩

/-! ## Decoding: a word of every constructor, written out bit by bit from the table of 30_encoding.md R84 -/

theorem test_decode_family0 :
    decode true 0b0000_0000_1110_0000 = .ok .cls ∧ decode true 0b0000_0000_1110_1110 = .ok .ret := by decide

theorem test_decode_families_1_to_7 :
    decode true 0b0001_0010_0011_0100 = .ok (.jp 0x234) ∧
    decode true 0b0010_0011_0000_0000 = .ok (.call 0x300) ∧
    decode true 0b0011_0011_0100_0010 = .ok (.seImm 3 0x42) ∧
    decode true 0b0100_0011_0100_0010 = .ok (.sneImm 3 0x42) ∧
    decode true 0b0101_0001_0010_0000 = .ok (.seReg 1 2) ∧
    decode true 0b0110_1111_0111_0111 = .ok (.ldImm 0xF 0x77) ∧
    decode true 0b0111_0010_1111_1111 = .ok (.addImm 2 0xFF) := by decide

theorem test_decode_family8 :
    decode true 0b1000_0001_0010_0000 = .ok (.ldReg 1 2) ∧
    decode true 0b1000_0001_0010_0001 = .ok (.or 1 2) ∧
    decode true 0b1000_0001_0010_0010 = .ok (.and 1 2) ∧
    decode true 0b1000_0001_0010_0011 = .ok (.xor 1 2) ∧
    decode true 0b1000_0001_0010_0100 = .ok (.addReg 1 2) ∧
    decode true 0b1000_0001_0010_0101 = .ok (.sub 1 2) ∧
    decode true 0b1000_0001_0010_0110 = .ok (.shr 1 2) ∧
    decode true 0b1000_0001_0010_0111 = .ok (.subn 1 2) ∧
    decode true 0b1000_0001_0010_1110 = .ok (.shl 1 2) := by decide

theorem test_decode_families_9_to_D :
    decode true 0b1001_0001_0010_0000 = .ok (.sneReg 1 2) ∧
    decode true 0b1010_0011_0000_0001 = .ok (.ldI 0x301) ∧
    decode true 0b1011_0011_0000_0001 = .ok (.jpV0 0x301) ∧
    decode true 0b1100_0011_0000_1111 = .ok (.rnd 3 0x0F) ∧
    decode true 0b1101_0001_0010_0101 = .ok (.drw 1 2 5) := by decide

theorem test_decode_families_E_F :
    decode true 0b1110_0001_1001_1110 = .ok (.skp 1) ∧
    decode true 0b1110_0001_1010_0001 = .ok (.sknp 1) ∧
    decode true 0b1111_0011_0000_0111 = .ok (.ldVDt 3) ∧
    decode true 0b1111_0011_0000_1010 = .ok (.ldVK 3) ∧
    decode true 0b1111_0011_0001_0101 = .ok (.ldDtV 3) ∧
    decode true 0b1111_0011_0001_1000 = .ok (.ldStV 3) ∧
    decode true 0b1111_0011_0001_1110 = .ok (.addI 3) ∧
    decode true 0b1111_0011_0010_1001 = .ok (.ldF 3) ∧
    decode true 0b1111_0011_0011_0011 = .ok (.ldB 3) ∧
    decode true 0b1111_0011_0101_0101 = .ok (.ldMemV 3) ∧
    decode true 0b1111_0011_0110_0101 = .ok (.ldVMem 3) := by decide

/-- R80: bytes are read high byte first, and what follows is left over; one byte is no instruction. -/
theorem test_decode_bytes :
    decodeBytes true [0x12, 0x34, 0x56] = .ok (.jp 0x234, [0x56]) ∧ decodeBytes true [0x12] = .error (.truncated 1) := by
  decide

theorem test_encode_bytes : encodeBytes (.drw 0 1 5) = [0xD0, 0x15] := by decide

/-- The host's numbering: bit 0 is the word's least significant bit, and higher bits than `nbits` are 0. -/
theorem test_decode_table_word :
    decodeTableWord 16 0xD125 = some (.drw 1 2 5) ∧ decodeTableWord 16 0x15121 = none ∧
      decodeTableWord 16 0x18124 = some (.addReg 1 2) := by decide

/-- The first instruction after reset: 6123 sets V1. -/
theorem test_with_fetch_word :
    after (State.reset.withFetchWord 16 0x6123) (fun t => (t.reg 1, t.pc, t.fault)) = some (0x23, 0x202, none) := by decide

/-! ## Fetch and errors -/

/-- V-F2: an odd `pc` is fetched like an even one. -/
theorem test_fetch_odd :
    after ((State.reset.setPc 0x201).placeWord 0x6123) (fun t => (t.reg 1, t.pc)) = some (0x23, 0x203) := by decide

/-- V-F6: a fetch at 0xFFF fails, and the timers stand. -/
theorem test_fetch_out_of_bounds :
    nextOf (step ((State.reset.setPc 0xFFF).setDt 3)) =
      some { (State.reset.setPc 0xFFF).setDt 3 with fault := some (.outOfBounds .fetch 0xFFF 0xFFF) } := by decide

/-- V-D4: an unknown word is taken as its error. -/
theorem test_unknown_opcode :
    nextOf (step (start 0x01E0)) = some { start 0x01E0 with fault := some (.unknownOpcode 0x01E0 0x200) } := by decide

/-- R273: a halted core answers its stored error. -/
theorem test_halted : step { start 0x6005 with fault := some (.stackOverflow 0x200) } = .fault (.stackOverflow 0x200) := rfl

/-! ## Control transfer and skips -/

/-- V-C3: the return address is the frame plus 2. -/
theorem test_ret : after (withFrame (start 0x00EE) 0xFFE) (fun t => (t.pc, t.sp)) = some (0x1000, 0) := by decide

/-- V-C2. -/
theorem test_ret_underflow : after (start 0x00EE) (·.fault) = some (some (.stackUnderflow 0x200)) := by decide

/-- V-C5: a jump to itself. -/
theorem test_jp_self : after (start 0x1200) (·.pc) = some 0x200 := by decide

/-- V-C8: the last free slot takes the CALL's own address. -/
theorem test_call_last_slot :
    after { start 0x2300 with sp := 15 } (fun t => (t.pc, t.sp, t.stack[15])) = some (0x300, 16, 0x200) := by decide

/-- V-C9. -/
theorem test_call_overflow :
    after { start 0x2300 with sp := 16 } (fun t => (t.pc, t.sp, t.fault)) =
      some (0x200, 16, some (.stackOverflow 0x200)) := by decide

/-- V-C10. -/
theorem test_se_imm_equal : after ((start 0x3342).setReg 3 0x42) (·.pc) = some 0x204 := by decide
/-- V-C11. -/
theorem test_se_imm_differ : after ((start 0x3343).setReg 3 0x42) (·.pc) = some 0x202 := by decide
/-- V-C13. -/
theorem test_sne_imm_equal : after ((start 0x4342).setReg 3 0x42) (·.pc) = some 0x202 := by decide
/-- V-C14. -/
theorem test_sne_imm_differ : after ((start 0x4300).setReg 3 0x42) (·.pc) = some 0x204 := by decide
/-- V-C15. -/
theorem test_se_reg_equal : after (((start 0x5120).setReg 1 7).setReg 2 7) (·.pc) = some 0x204 := by decide
/-- V-C16. -/
theorem test_se_reg_differ : after (((start 0x5120).setReg 1 7).setReg 2 8) (·.pc) = some 0x202 := by decide
/-- V-C18. -/
theorem test_sne_reg_equal : after (((start 0x9120).setReg 1 7).setReg 2 7) (·.pc) = some 0x202 := by decide
/-- V-C19. -/
theorem test_sne_reg_differ : after (((start 0x9120).setReg 1 7).setReg 2 8) (·.pc) = some 0x204 := by decide
/-- V-C21: the sum is not reduced modulo 4096. -/
theorem test_jp_v0_top : after ((start 0xBFFF).setReg 0 0xFF) (·.pc) = some 0x10FE := by decide
/-- V-C22: V0 is added, not V[x]. -/
theorem test_jp_v0_register : after (((start 0xB201).setReg 0 1).setReg 2 0x55) (·.pc) = some 0x202 := by decide

/-! ## Register loads and the ALU -/

/-- V-A2. -/
theorem test_ld_imm : after (start 0x6F77) (fun t => (t.reg 0xF, t.pc)) = some (0x77, 0x202) := by decide
/-- V-A4: no carry to VF. -/
theorem test_add_imm_no_flag :
    after (((start 0x72FF).setReg 2 0x10).setReg 0xF 0x55) (fun t => (t.reg 2, t.reg 0xF)) = some (0x0F, 0x55) := by decide
/-- V-A5. -/
theorem test_add_imm_vf : after ((start 0x7F01).setReg 0xF 0xFF) (·.reg 0xF) = some 0 := by decide
/-- V-A6. -/
theorem test_ld_reg : after ((start 0x8010).setReg 1 0x33) (fun t => (t.reg 0, t.reg 1)) = some (0x33, 0x33) := by decide
/-- V-A7: VF stands. -/
theorem test_or :
    after ((((start 0x8011).setReg 0 0x0F).setReg 1 0xF0).setReg 0xF 7) (fun t => (t.reg 0, t.reg 0xF)) = some (0xFF, 7) := by
  decide
/-- V-A8. -/
theorem test_and : after (((start 0x8012).setReg 0 0x3C).setReg 1 0x0F) (·.reg 0) = some 0x0C := by decide
/-- V-A9. -/
theorem test_xor : after (((start 0x8013).setReg 0 0xFF).setReg 1 0x0F) (·.reg 0) = some 0xF0 := by decide
/-- V-A11 (S3). -/
theorem test_add_reg_carry :
    after (((start 0x8014).setReg 0 250).setReg 1 10) (fun t => (t.reg 0, t.reg 0xF)) = some (4, 1) := by decide
/-- V-A16: with y = F the old VF is the addend. -/
theorem test_add_reg_y_is_vf :
    after (((start 0x80F4).setReg 0 0x10).setReg 0xF 0x20) (fun t => (t.reg 0, t.reg 0xF)) = some (0x30, 0) := by decide
/-- V-A18. -/
theorem test_sub_borrow :
    after (((start 0x8125).setReg 1 5).setReg 2 7) (fun t => (t.reg 1, t.reg 0xF)) = some (0xFE, 0) := by decide
/-- V-A19. -/
theorem test_sub_equal :
    after (((start 0x8125).setReg 1 5).setReg 2 5) (fun t => (t.reg 1, t.reg 0xF)) = some (0, 1) := by decide
/-- V-A22: the source is V[y] when `CFG_SHIFT_SOURCE` says so. -/
theorem test_shr_vy :
    after (withConfig (((start 0x8126).setReg 1 5).setReg 2 0x80) fun c => { c with shiftSource := .vy })
      (fun t => (t.reg 1, t.reg 0xF)) = some (0x40, 0) := by decide
/-- V-A24: with x = F, VF ends with the flag. -/
theorem test_shr_vf : after ((start 0x8F06).setReg 0xF 3) (·.reg 0xF) = some 1 := by decide
/-- V-A25. -/
theorem test_subn : after (((start 0x8127).setReg 1 5).setReg 2 7) (fun t => (t.reg 1, t.reg 0xF)) = some (2, 1) := by decide
/-- V-A26. -/
theorem test_subn_borrow :
    after (((start 0x8127).setReg 1 7).setReg 2 5) (fun t => (t.reg 1, t.reg 0xF)) = some (0xFE, 0) := by decide
/-- V-A28. -/
theorem test_shl : after ((start 0x844E).setReg 4 0x81) (fun t => (t.reg 4, t.reg 0xF)) = some (2, 1) := by decide
/-- V-A30. -/
theorem test_shl_vy :
    after (withConfig (((start 0x845E).setReg 4 1).setReg 5 0xC0) fun c => { c with shiftSource := .vy })
      (fun t => (t.reg 4, t.reg 0xF)) = some (0x80, 1) := by decide
/-- R153: one draw; the drawn byte itself is free, so nothing is asked of V3. -/
theorem test_rnd_draws_once : after (start 0xC30F) (fun t => (t.draws, t.pc)) = some (1, 0x202) := rfl

/-! ## The address register and memory -/

/-- V-M1. -/
theorem test_ld_i : after (start 0xA300) (fun t => (t.i, t.pc)) = some (0x300, 0x202) := by decide
/-- V-M3: `I` wraps, VF stands. -/
theorem test_add_i_wraps :
    after (((start 0xF21E).setI 0xFFFF).setReg 2 1) (fun t => (t.i, t.reg 0xF)) = some (0, 0) := by decide
/-- V-M6. -/
theorem test_ld_f : after ((start 0xF529).setReg 5 0xFF) (·.i) = some 0x4FB := by decide
/-- V-M7. -/
theorem test_bcd :
    after (((start 0xF333).setReg 3 156).setI 0x300) (fun t => (t.readBytes 0x300 3, t.i)) = some ([1, 5, 6], 0x300) := by
  decide
/-- V-M11: nothing is written. -/
theorem test_bcd_out_of_bounds :
    after (((start 0xF333).setReg 3 7).setI 0xFFE) (fun t => (t.fault, t.mem)) =
      some (some (.outOfBounds .write 0x1000 0x200), (start 0xF333).mem) := by decide
/-- By R185: V0 and V1 to 0x300 and 0x301, and `I` goes up by 2. -/
theorem test_dump :
    after ((((start 0xF155).setReg 0 0xAA).setReg 1 0xBB).setI 0x300) (fun t => (t.readBytes 0x300 3, t.i)) =
      some ([0xAA, 0xBB, 0], 0x302) := by decide
/-- By R55, R60: a reserved write with `FAULT`. -/
theorem test_dump_reserved :
    after (withConfig ((start 0xF055).setI 0x1FF) fun c => { c with reservedWrite := .fault }) (fun t => (t.fault, t.i)) =
      some (some (.outOfBounds .reservedWrite 0x1FF 0x200), 0x1FF) := by decide
/-- By R186 and R52: the first two font bytes to V0 and V1. -/
theorem test_load : after (start 0xF165) (fun t => (t.reg 0, t.reg 1, t.reg 2, t.i)) = some (0xF0, 0x90, 0, 2) := by decide
/-- By R59, R61, R186: the lowest address that fails is 0x1000. -/
theorem test_load_out_of_bounds :
    after ((start 0xF265).setI 0xFFE) (fun t => (t.fault, t.i)) = some (some (.outOfBounds .read 0x1000 0x200), 0xFFE) := by
  decide

/-! ## The display -/

/-- By R211: `redraw` is set though no cell changes. -/
theorem test_cls : after (start 0x00E0) (fun t => (t.disp, t.redraw, t.pc)) = some (Display.clear, true, 0x202) := by decide

/-- S4: glyph 0 at the origin sets cells 0 to 3 of rows 0 and 4 and cells 0 and 3 of rows 1 to 3; bit 0 of a row is its
leftmost cell. -/
theorem test_drw_glyph :
    after (start 0xD015) (fun t => ((List.range 6).map fun r => t.disp[r]?, t.reg 0xF, t.redraw)) =
      some ([some 0xF, some 0x9, some 0x9, some 0x9, some 0xF, some 0], 0, true) := by decide

/-- By R214: one row of 0xF0 at (62, 31) wraps to columns 62, 63, 0 and 1; cell 1 was set, so VF = 1 and it is cleared. -/
theorem test_drw_wraps :
    after { ((start 0xD011).setReg 0 62).setReg 1 31 with disp := Display.toggle Display.clear 1 31 }
      (fun t => (t.disp[31], t.disp[0], t.reg 0xF)) = some (0xC000000000000001, 0, 1) := by decide

/-! ## Keys and timers -/

/-- By R241: key 5 is pressed. -/
theorem test_skp : after (pressed ((start 0xE19E).setReg 1 5) 5) (·.pc) = some 0x204 := by decide
/-- By R240 and D14: an index of 16 or more is the low nibble's key when `CFG_KEY_INDEX_HIGH` says so. -/
theorem test_skp_low_nibble :
    after (withConfig (pressed ((start 0xE19E).setReg 1 0x15) 5) fun c => { c with keyIndexHigh := .lowNibble }) (·.pc) =
      some 0x204 := by decide
/-- By R242. -/
theorem test_sknp : after (pressed ((start 0xE1A1).setReg 1 5) 5) (·.pc) = some 0x202 := by decide
/-- By R242 and D14: an index of 16 or more is not pressed by default. -/
theorem test_sknp_high : after (pressed ((start 0xE1A1).setReg 1 0x15) 5) (·.pc) = some 0x204 := by decide
/-- By R243: the value before this step's decrement. -/
theorem test_ld_v_dt : after ((start 0xF307).setDt 5) (fun t => (t.reg 3, t.dt)) = some (5, 4) := by decide
/-- By R244: the lowest pressed key. -/
theorem test_ld_v_k : after (pressed (pressed (start 0xF30A) 9) 4) (fun t => (t.reg 3, t.pc)) = some (4, 0x202) := by decide
/-- By R244 and R282: with no key pressed only the timers move. -/
theorem test_ld_v_k_waits : nextOf (step ((start 0xF30A).setDt 2)) = some ((start 0xF30A).setDt 1) := by decide
/-- By R245 and R281: the decrement follows the write. -/
theorem test_ld_dt_v : after ((start 0xF315).setReg 3 9) (·.dt) = some 8 := by decide
/-- By R246 and R281. -/
theorem test_ld_st_v : after ((start 0xF318).setReg 3 9) (·.st) = some 8 := by decide

/-! ## Reset and the host -/

/-- R311, R312 and R52. -/
theorem test_reset :
    (State.reset.pc, State.reset.readByte 0x000, State.reset.readByte 0x04F, State.reset.readByte 0x050) =
      (0x200, 0xF0, 0x80, 0) := by decide

/-- R313: the image goes to 0x200 and up. -/
theorem test_load_program :
    (nextOf (loadProgram [0x12, 0x34] State.reset)).map (fun t => (t.readByte 0x200, t.readByte 0x201, t.pc)) =
      some (0x12, 0x34, 0x200) := by decide

/-! ## Each statement's hypotheses are met

A theorem `witness_<Statement>` gives, for each clause of `Obligations.<Statement>`, concrete values that meet its hypotheses
together, at the clause's boundary where it has one. -/

theorem witness_EncodeUndoesStrictDecode : decode true 0xD015 = .ok (.drw 0 1 5) := by decide

theorem witness_FetchReadsTwoBytesBigEndian :
    (State.reset.setPc 0xFFE).pc.toNat + 1 ≤ 0xFFF ∧ (State.reset.setPc 0xFFF).pc.toNat + 1 > 0xFFF := by decide

theorem witness_StepRunsTheDecodedInstruction :
    (∃ t, (start 0x6005).fault = none ∧ (start 0x6005).pc.toNat + 1 ≤ 0xFFF ∧
      (0x6005#16).toNat = ((start 0x6005).readByte (start 0x6005).pc.toNat).toNat * 256 +
        ((start 0x6005).readByte ((start 0x6005).pc.toNat + 1)).toNat ∧
      decode (start 0x6005).cfg.strictDecode 0x6005 = .ok (.ldImm 0 5) ∧
      exec (.ldImm 0 5) (start 0x6005) = .next t ∧ t.fault = none) ∧
    ∃ t, (start 0x00EE).fault = none ∧ (start 0x00EE).pc.toNat + 1 ≤ 0xFFF ∧
      (0x00EE#16).toNat = ((start 0x00EE).readByte (start 0x00EE).pc.toNat).toNat * 256 +
        ((start 0x00EE).readByte ((start 0x00EE).pc.toNat + 1)).toNat ∧
      decode (start 0x00EE).cfg.strictDecode 0x00EE = .ok .ret ∧
      exec .ret (start 0x00EE) = .next t ∧ t.fault ≠ none :=
  ⟨⟨_, rfl, by decide, by decide, by decide, rfl, by decide⟩, ⟨_, rfl, by decide, by decide, by decide, rfl, by decide⟩⟩

theorem witness_FetchAndDecodeErrorsAreTaken :
    ((State.reset.setPc 0xFFF).fault = none ∧ (State.reset.setPc 0xFFF).pc.toNat + 1 > 0xFFF) ∧
    ((start 0x5121).fault = none ∧ (start 0x5121).pc.toNat + 1 ≤ 0xFFF ∧
      (0x5121#16).toNat = ((start 0x5121).readByte (start 0x5121).pc.toNat).toNat * 256 +
        ((start 0x5121).readByte ((start 0x5121).pc.toNat + 1)).toNat ∧
      decode (start 0x5121).cfg.strictDecode 0x5121 = .error (.unknownOpcode 0x5121)) := by decide

theorem witness_FailingStepChangesOnlyTheLatch : ∃ t, step (start 0x00EE) = .next t ∧ t.fault ≠ none :=
  ⟨_, rfl, by decide⟩

/-- One failing step for each kind of record. -/
theorem witness_ErrorRecordsExplainTheFailure :
    (∃ t e, step (State.reset.setPc 0xFFF) = .next t ∧ t.fault = some e) ∧
    (∃ t e, step ((start 0xF065).setI 0x1000) = .next t ∧ t.fault = some e) ∧
    (∃ t e, step ((start 0xF055).setI 0x1000) = .next t ∧ t.fault = some e) ∧
    (∃ t e, step (withConfig (start 0xF055) fun c => { c with reservedWrite := .fault }) = .next t ∧ t.fault = some e) ∧
    (∃ t e, step (start 0x0000) = .next t ∧ t.fault = some e) ∧
    (∃ t e, step { start 0x2300 with sp := 16 } = .next t ∧ t.fault = some e) ∧
    ∃ t e, step (start 0x00EE) = .next t ∧ t.fault = some e :=
  ⟨⟨_, _, rfl, rfl⟩, ⟨_, _, rfl, rfl⟩, ⟨_, _, rfl, rfl⟩, ⟨_, _, rfl, rfl⟩, ⟨_, _, rfl, rfl⟩, ⟨_, _, rfl, rfl⟩,
    ⟨_, _, rfl, rfl⟩⟩

theorem witness_TimerUpdateEndsTheStep : ∃ t, step (start 0x6005) = .next t ∧ t.fault = none := ⟨_, rfl, by decide⟩

theorem witness_TimersCountCompletedSteps :
    ∃ t, fetchDecode (start 0x6005) = .ok (.ldImm 0 5) ∧ step (start 0x6005) = .next t ∧ t.fault = none ∧
      (∀ x, Instr.ldImm 0 5 ≠ .ldDtV x) ∧ ∀ x, Instr.ldImm 0 5 ≠ .ldStV x :=
  ⟨_, by decide, rfl, by decide, by simp, by simp⟩

theorem witness_JumpToItselfIdles :
    (start 0x1200).fault = none ∧ fetchDecode (start 0x1200) = .ok (.jp 0x200) ∧
      (0x200#12).toNat = (start 0x1200).pc.toNat := by decide

theorem witness_CallPushesItsOwnAddress :
    { State.reset with sp := 15 }.sp.val < 16 ∧ { State.reset with sp := 16 }.sp.val = 16 := by decide

theorem witness_ReturnPopsAndAdvances :
    { State.reset with sp := 1 }.sp.val = (0 : Fin 16).val + 1 ∧
      { State.reset with sp := 16 }.sp.val = (15 : Fin 16).val + 1 ∧ State.reset.sp.val = 0 := by decide

theorem witness_ReturnUndoesCall :
    ∃ t u : State, exec (.call 0x300) { State.reset with sp := 15 } = .next t ∧
      { State.reset with sp := 15 }.sp.val < 16 ∧ u.stack = t.stack ∧ u.sp = t.sp :=
  ⟨_, _, rfl, by decide, rfl, rfl⟩

theorem witness_RegisterSkips : (false = false ∨ (0xF#4) = 0) ∧ (true = false ∨ (0#4) = 0) ∧ (1#4) ≠ 0 := by decide

theorem witness_ShiftsMoveOneBit :
    (State.reset.cfg.shiftSource = .vx ∧ (5 = ((State.reset.setReg 1 5).reg 1).toNat)) ∧
    ((withConfig State.reset fun c => { c with shiftSource := .vy }).cfg.shiftSource = .vy ∧
      5 = ((State.reset.setReg 2 5).reg 2).toNat) := by decide

theorem witness_BcdStore :
    State.reset.MemCanonical ∧
    ((State.reset.setI 0xFFD).i.toNat + 2 ≤ 0xFFF ∧
      ¬ ((State.reset.setI 0xFFD).cfg.reservedWrite = .fault ∧ (State.reset.setI 0xFFD).i.toNat < 0x200)) ∧
    ((withConfig (State.reset.setI 0x1FF) fun c => { c with reservedWrite := .fault }).cfg.reservedWrite = .fault ∧
      (State.reset.setI 0x1FF).i.toNat < 0x200) ∧
    (State.reset.setI 0xFFE).i.toNat + 2 > 0xFFF :=
  ⟨Memory.wf_nil _, by decide, by decide, by decide⟩

theorem witness_RegisterDump :
    State.reset.MemCanonical ∧
    ((State.reset.setI 0xFF0).i.toNat + (0xF#4).toNat ≤ 0xFFF ∧
      ¬ ((State.reset.setI 0xFF0).cfg.reservedWrite = .fault ∧ (State.reset.setI 0xFF0).i.toNat < 0x200)) ∧
    ((withConfig (State.reset.setI 0x1FF) fun c => { c with reservedWrite := .fault }).cfg.reservedWrite = .fault ∧
      (State.reset.setI 0x1FF).i.toNat < 0x200) ∧
    (State.reset.setI 0xFF1).i.toNat + (0xF#4).toNat > 0xFFF :=
  ⟨Memory.wf_nil _, by decide, by decide, by decide⟩

theorem witness_RegisterLoad :
    (State.reset.setI 0xFF0).i.toNat + (0xF#4).toNat ≤ 0xFFF ∧ (State.reset.setI 0xFF1).i.toNat + (0xF#4).toNat > 0xFFF := by
  decide

theorem witness_LoadUndoesDump :
    ∃ t u : State, (State.reset.setI 0x300).MemCanonical ∧ (State.reset.setI 0x300).fault = none ∧
      exec (.ldMemV 1) (State.reset.setI 0x300) = .next t ∧ t.fault = none ∧
      u.mem = t.mem ∧ u.cfg = t.cfg ∧ u.i = (State.reset.setI 0x300).i :=
  ⟨_, State.reset.setI 0x300, Memory.wf_nil _, rfl, rfl, rfl, by decide, rfl, rfl⟩

theorem witness_FetchSeesStoredBytes :
    ∃ t u : State, (State.reset.setI 0x300).MemCanonical ∧ (State.reset.setI 0x300).fault = none ∧
      exec (.ldMemV 1) (State.reset.setI 0x300) = .next t ∧ t.fault = none ∧
      u.mem = t.mem ∧ u.cfg = t.cfg ∧ (1#4).toNat = (0#4).toNat + 1 ∧ (1#4).toNat ≤ (1#4).toNat ∧
      u.pc.toNat = (State.reset.setI 0x300).i.toNat + (0#4).toNat :=
  ⟨_, State.reset.setPc 0x300, Memory.wf_nil _, rfl, rfl, rfl, by decide, rfl, by decide, by decide, by decide⟩

theorem witness_DrawTogglesTheCoveredCells :
    ((State.reset.setI 0xFF1).i.toNat + (0xF#4).toNat ≤ 0x1000 ∨ (0xF#4) = 0) ∧
    ((State.reset.setI 0xFFFF).i.toNat + (0#4).toNat ≤ 0x1000 ∨ (0#4) = 0) ∧
    ((State.reset.setI 0xFF2).i.toNat + (0xF#4).toNat > 0x1000 ∧ (0xF#4) ≠ 0) := by decide

/-- Three pairs of draws: at (V0, V1), which the first draw leaves; at (VF, V1), with VF loaded again after a first draw that
collides and so changes it; and n = 0 with `I` above 0x1000. -/
theorem witness_DrawingTwiceRestores :
    (∃ t, (State.reset.i.toNat + (5#4).toNat ≤ 0x1000 ∨ (5#4) = 0) ∧ exec (.drw 0 1 5) State.reset = .next t ∧
      t.reg 0 = State.reset.reg 0 ∧ t.reg 1 = State.reset.reg 1) ∧
    (∃ t u : State, (State.reset.i.toNat + (1#4).toNat ≤ 0x1000 ∨ (1#4) = 0) ∧
      exec (.drw 0xF 1 1) { State.reset with disp := Display.toggle Display.clear 0 0 } = .next t ∧ t.reg 0xF ≠ 0 ∧
      u.disp = t.disp ∧ u.mem = t.mem ∧ u.cfg = t.cfg ∧ u.i = t.i ∧ u.reg 0xF = State.reset.reg 0xF ∧
      u.reg 1 = State.reset.reg 1) ∧
    ∃ t, ((State.reset.setI 0xFFFF).i.toNat + (0#4).toNat ≤ 0x1000 ∨ (0#4) = 0) ∧
      exec (.drw 0 1 0) (State.reset.setI 0xFFFF) = .next t :=
  ⟨⟨_, by decide, rfl, by decide, by decide⟩,
    ⟨_, State.setReg _ 0xF 0, by decide, rfl, by decide, rfl, rfl, rfl, rfl, by decide, by decide⟩,
    ⟨_, by decide, rfl⟩⟩

theorem witness_KeySkips :
    ((State.reset.setReg 1 0xF).reg 1).toNat = (15 : Fin 16).val ∧
    (((State.reset.setReg 1 0x10).reg 1).toNat > 0xF ∧
      (withConfig State.reset fun c => { c with keyIndexHigh := .lowNibble }).cfg.keyIndexHigh = .lowNibble ∧
      ((State.reset.setReg 1 0x10).reg 1).toNat % 16 = (0 : Fin 16).val) ∧
    (((State.reset.setReg 1 0x10).reg 1).toNat > 0xF ∧ State.reset.cfg.keyIndexHigh = .notPressed) := by decide

theorem witness_KeyWait :
    ((pressed State.reset 15).key[(15 : Fin 16)] = true ∧
      ∀ j : Fin 16, j < 15 → (pressed State.reset 15).key[j] = false) ∧
    ∀ j : Fin 16, State.reset.key[j] = false := by decide

theorem witness_TimerAccess :
    State.reset.fault = none ∧ fetchDecode (start 0xF307) = .ok (.ldVDt 3) ∧ fetchDecode (start 0xF315) = .ok (.ldDtV 3) ∧
      fetchDecode (start 0xF318) = .ok (.ldStV 3) := by decide

/-- S9: 3584 and 3585 bytes. -/
theorem witness_LoadProgramCopiesTheImage :
    State.reset.MemCanonical ∧ (List.replicate 3584 (0 : Byte)).length ≤ 3584 ∧
      (List.replicate 3585 (0 : Byte)).length > 3584 :=
  ⟨Memory.wf_nil _, by rw [List.length_replicate], by rw [List.length_replicate]; decide⟩

theorem witness_HostWritesOnlyItsOwn :
    ∃ t, HostAction.loadProgram [0x12] ≠ .step ∧ HostAction.loadProgram [0x12] ≠ .reset ∧
      hostAct (.loadProgram [0x12]) State.reset = .next t :=
  ⟨_, by simp, by simp, rfl⟩

theorem witness_TraceRecordsCompletedSteps : ∃ r, (start 0x6005).trace = some r := ⟨_, rfl⟩

theorem witness_OtherInstructionsAdvance :
    ∃ t, ¬ (Instr.drw 0 1 5).SetsPc ∧ State.reset.fault = none ∧ exec (.drw 0 1 5) State.reset = .next t ∧ t.fault = none :=
  ⟨_, id, rfl, rfl, by decide⟩

theorem witness_RegistersWrittenAreThoseOfTheTable : ∃ t, exec (.addReg 0 1) State.reset = .next t := ⟨_, rfl⟩

theorem witness_PartsWrittenAreThoseOfTheRules : ∃ t, exec (.ldMemV 3) State.reset = .next t := ⟨_, rfl⟩

theorem witness_StepNeverWritesKeysOrParameters : ∃ t, step (start 0xF30A) = .next t := ⟨_, rfl⟩

theorem witness_ReservedBytesAreProtected :
    ∃ t, (withConfig State.reset fun c => { c with reservedWrite := .fault }).MemCanonical ∧
      (withConfig State.reset fun c => { c with reservedWrite := .fault }).cfg.reservedWrite = .fault ∧
      HostAction.loadProgram [0x12] ≠ .reset ∧
      hostAct (.loadProgram [0x12]) (withConfig State.reset fun c => { c with reservedWrite := .fault }) = .next t :=
  ⟨_, Memory.wf_nil _, rfl, by simp, rfl⟩

theorem witness_UnreadPiecesDoNotMatter : ∃ t, exec (.drw 0 1 5) State.reset = .next t ∧ ¬ (Instr.drw 0 1 5).ReadsKeys :=
  ⟨_, rfl, by simp [Instr.ReadsKeys]⟩

/-- Two states that differ in slot 1, with one frame pushed. -/
theorem witness_DeadStackSlotsAreNotObservable :
    ∃ s' : State, State.SameButDeadFrames (withFrame (start 0x00EE) 0x300)
        { withFrame (start 0x00EE) 0x300 with stack := (withFrame (start 0x00EE) 0x300).stack.set 1 0x777 } ∧
      step (withFrame (start 0x00EE) 0x300) = .next s' :=
  ⟨_, ⟨rfl, by decide⟩, rfl⟩

theorem start_canonical : (start 0x6005).MemCanonical :=
  State.writeByte_wf _ _ _ (by decide) (State.writeByte_wf _ _ _ (by decide) (Memory.wf_nil _))

theorem witness_StepKeepsMemoryCanonical : ∃ t, (start 0x6005).MemCanonical ∧ step (start 0x6005) = .next t :=
  ⟨_, start_canonical, rfl⟩

theorem witness_StepKeepsPcInRange : ∃ t, (start 0x6005).PcInRange ∧ step (start 0x6005) = .next t :=
  ⟨_, ⟨by decide, by decide⟩, rfl⟩

theorem witness_HostActionsKeepStatesWellKept :
    ∃ t, (start 0x6005).MemCanonical ∧ (start 0x6005).PcInRange ∧ hostAct .step (start 0x6005) = .next t :=
  ⟨_, start_canonical, ⟨by decide, by decide⟩, rfl⟩

end Sys2Proof.Tests
end

section
/-! PROOFS. 20_memory.md: the instruction fetch, an equation per case of its bound (R57), and the statement about it. -/
namespace Sys2Proof.Machine

/-- R57, the last byte in memory: the fetch succeeds, at an odd `pc` as at an even one (D21). -/
theorem fetch_of_inBounds (s : State) (h : s.pc.toNat + 1 ≤ 0xFFF) :
    fetch s = .ok (wordOfBytes (s.readByte s.pc.toNat) (s.readByte (s.pc.toNat + 1))) :=
  if_neg (Nat.not_lt.mpr h)

/-- R57, the last byte past memory: the record's address is `pc` itself (D17). -/
theorem fetch_of_outOfBounds (s : State) (h : s.pc.toNat + 1 > 0xFFF) :
    fetch s = .error (.outOfBounds .fetch s.pc.toNat s.pc) :=
  if_pos h

/-- Settles O6: in bounds the word is the two bytes put together, whose value `wordOfBytes_toNat` gives. -/
theorem fetchReadsTwoBytesBigEndian : Obligations.FetchReadsTwoBytesBigEndian := fun s =>
  ⟨fun h => ⟨_, fetch_of_inBounds s h, wordOfBytes_toNat _ _⟩, fetch_of_outOfBounds s⟩

end Sys2Proof.Machine
end

section
/-! PROOFS. 30_encoding.md: the instructions whose rule leaves `pc` alone end with `pc + 2` or raise an error (R93). -/
namespace Sys2Proof.Machine

/-- The outcome of an instruction begun in `s` under the rule of R93: an error taken, or a next state at `pc + 2`. -/
def AdvancesOrRaises (s : State) (r : Result) : Prop :=
  (∃ e, r = raise e s) ∨ ∃ t, r = .next t ∧ t.pc = s.pc + 2

/-- An outcome that left the latch empty is no error, so it is at `pc + 2`. -/
theorem AdvancesOrRaises.pc_of_fault_eq_none {s t : State} {r : Result} (h : AdvancesOrRaises s r) (hr : r = .next t)
    (ht : t.fault = none) : t.pc = s.pc + 2 := by
  subst hr
  rcases h with ⟨e, he⟩ | ⟨u, hu, hpc⟩
  · cases he
    cases ht
  · cases hu
    exact hpc

theorem State.withLoad_advancesOrRaises (s : State) (base n : Nat) (k : List Byte → State)
    (hk : ∀ bytes, (k bytes).pc = s.pc + 2) : AdvancesOrRaises s (s.withLoad base n k) := by
  rcases s.withLoad_cases base n k with ⟨_, h⟩ | ⟨_, h⟩
  · exact .inr ⟨_, h, hk _⟩
  · exact .inl ⟨_, h⟩

theorem State.withStore_advancesOrRaises (s : State) (base : Nat) (bytes : List Byte) (k : State → State)
    (hb : bytes ≠ []) (hk : ∀ t, (k t).pc = t.pc + 2) : AdvancesOrRaises s (s.withStore base bytes k) := by
  rcases s.withStore_cases base bytes k hb with ⟨_, h⟩ | ⟨_, h⟩ | ⟨_, h⟩
  · exact .inr ⟨_, h, by rw [hk, State.writeBytes_pc]⟩
  · exact .inl ⟨_, h⟩
  · exact .inl ⟨_, h⟩

/-- R93, by constructor: those that set `pc` are excluded, the four that access memory can raise, and every other meaning
is an `advance`. -/
theorem exec_advancesOrRaises (i : Instr) (s : State) (hi : ¬ i.SetsPc) : AdvancesOrRaises s (exec i s) := by
  cases i with
  | ret | jp | call | seImm | sneImm | seReg | sneReg | jpV0 | skp | sknp | ldVK => exact absurd trivial hi
  | drw x y n =>
    simp only [exec, execDrw]
    exact s.withLoad_advancesOrRaises _ _ _ fun _ => rfl
  | ldVMem x =>
    simp only [exec, execLdVMem]
    exact s.withLoad_advancesOrRaises _ _ _ fun bytes => by simp
  | ldB x => exact s.withStore_advancesOrRaises _ _ _ (by simp [bcdDigits]) State.advance_pc
  | ldMemV x =>
    simp only [exec, execLdMemV]
    exact s.withStore_advancesOrRaises _ _ _ (s.regsUpTo_ne_nil x) fun _ => rfl
  | _ => exact .inr ⟨_, rfl, rfl⟩

/-- Settles O45: no error was raised, so of the two outcomes it is the one at `pc + 2`. -/
theorem otherInstructionsAdvance : Obligations.OtherInstructionsAdvance := fun i s _ hi _ hexec ht =>
  (exec_advancesOrRaises i s hi).pc_of_fault_eq_none hexec ht

end Sys2Proof.Machine
end

section
/-! PROOFS. 40_control_flow.md: an instruction that only sets `pc` (R111, R113, R114, R117) is read off three facts: its word,
the value of the new `pc`, and the frame of `State.setPc`. -/
namespace Sys2Proof

theorem decode_wordFNNN_jp (strict : Bool) (nnn : Addr) : decode strict (wordFNNN 0x1 nnn) = .ok (.jp nnn) := by
  simp [decode]

theorem decode_wordFNNN_jpV0 (strict : Bool) (nnn : Addr) : decode strict (wordFNNN 0xB nnn) = .ok (.jpV0 nnn) := by
  simp [decode]

theorem decode_wordFXNN_seImm (strict : Bool) (x : Nibble) (nn : Byte) :
    decode strict (wordFXNN 0x3 x nn) = .ok (.seImm x nn) := by
  simp [decode]

theorem decode_wordFXNN_sneImm (strict : Bool) (x : Nibble) (nn : Byte) :
    decode strict (wordFXNN 0x4 x nn) = .ok (.sneImm x nn) := by
  simp [decode]

end Sys2Proof

namespace Sys2Proof.Machine

/-! ## The frame -/

theorem State.setPc_unchangedBut_pc (s : State) (a : Word) : UnchangedBut [.pc] s (s.setPc a) := by
  intro p hp
  cases p with
  | pc => exact absurd (List.mem_singleton_self _) hp
  | v | mem => exact fun _ => rfl
  | _ => rfl

theorem State.skipIf_unchangedBut_pc (s : State) (c : Bool) : UnchangedBut [.pc] s (s.skipIf c) :=
  s.setPc_unchangedBut_pc _

/-! ## The value of the new `pc` -/

@[simp] theorem addrOperand_toNat (nnn : Addr) : (addrOperand nnn).toNat = nnn.toNat :=
  BitVec.toNat_setWidth_of_le (by decide)

@[simp] theorem zext16_toNat (b : Byte) : (zext16 b).toNat = b.toNat :=
  BitVec.toNat_setWidth_of_le (by decide)

/-- R117: the sum is at most 0xFF + 0xFFF = 0x10FE, so 16 bits hold it. -/
theorem zext16_add_addrOperand_toNat (b : Byte) (nnn : Addr) :
    (zext16 b + addrOperand nnn).toNat = b.toNat + nnn.toNat := by
  rw [BitVec.toNat_add, zext16_toNat, addrOperand_toNat]
  exact Nat.mod_eq_of_lt (by omega)

theorem State.skipIf_pc_toNat (s : State) (c : Bool) :
    (s.skipIf c).pc.toNat = (s.pc.toNat + if c then 4 else 2) % 0x10000 := by
  cases c <;> exact BitVec.toNat_add _ _

/-- R113, R115: a skip on equality, by the values compared. -/
theorem State.skipIf_beq_pc_toNat (s : State) (a b : Byte) :
    (s.skipIf (a == b)).pc.toNat = (s.pc.toNat + if a.toNat = b.toNat then 4 else 2) % 0x10000 := by
  simp only [State.skipIf_pc_toNat, beq_iff_eq, BitVec.toNat_inj]

/-- R114, R116: a skip on inequality, by the values compared. -/
theorem State.skipIf_bne_pc_toNat (s : State) (a b : Byte) :
    (s.skipIf (a != b)).pc.toNat = (s.pc.toNat + if a.toNat = b.toNat then 2 else 4) % 0x10000 := by
  simp only [State.skipIf_pc_toNat, bne_iff_ne, BitVec.toNat_inj, ite_not]

/-! ## The statements -/

/-- Settles O15: each jump is a `setPc`, of the address itself or of the sum with V0. -/
theorem jumpsGoToTheirTargets : Obligations.JumpsGoToTheirTargets := fun s nnn =>
  ⟨fun strict => ⟨decode_wordFNNN_jp strict nnn, decode_wordFNNN_jpV0 strict nnn⟩,
    ⟨_, rfl, addrOperand_toNat nnn, s.setPc_unchangedBut_pc _⟩,
    ⟨_, rfl, zext16_add_addrOperand_toNat (s.reg 0) nnn, s.setPc_unchangedBut_pc _⟩⟩

/-- Settles O19: each is a `skipIf`, on equality or on inequality of V[x] and `nn`. -/
theorem immediateSkips : Obligations.ImmediateSkips := fun s x nn =>
  ⟨fun strict => ⟨decode_wordFXNN_seImm strict x nn, decode_wordFXNN_sneImm strict x nn⟩,
    ⟨_, rfl, s.skipIf_beq_pc_toNat (s.reg x) nn, s.skipIf_unchangedBut_pc _⟩,
    ⟨_, rfl, s.skipIf_bne_pc_toNat (s.reg x) nn, s.skipIf_unchangedBut_pc _⟩⟩

end Sys2Proof.Machine
end

section
/-! PROOFS. 42_index_memory.md: an instruction that loads `I` (R181, R183) is read off three facts: its word, the value of the
new `I`, and the frame of `State.setI` before an advance. -/
namespace Sys2Proof

theorem decode_wordFNNN_ldI (strict : Bool) (nnn : Addr) : decode strict (wordFNNN 0xA nnn) = .ok (.ldI nnn) := by
  simp [decode]

theorem decode_wordFXNN_ldF (strict : Bool) (x : Nibble) : decode strict (wordFXNN 0xF x 0x29) = .ok (.ldF x) := by
  simp [decode, decodeFamilyF]

end Sys2Proof

namespace Sys2Proof.Machine

/-- R183: the product is at most 5 * 0xFF = 0x4FB, so 16 bits hold it. -/
theorem zext16_mul_five_toNat (b : Byte) : (zext16 b * 5).toNat = 5 * b.toNat := by
  rw [BitVec.toNat_mul, zext16_toNat, Nat.mul_comm]
  exact Nat.mod_eq_of_lt (show 5 * b.toNat < 2 ^ 16 by omega)

theorem State.setI_advance_unchangedBut_i_pc (s : State) (a : Word) : UnchangedBut [.i, .pc] s (s.setI a).advance := by
  intro p hp
  cases p with
  | i | pc => exact absurd hp (by decide)
  | v | mem => exact fun _ => rfl
  | _ => rfl

/-- Settles O27: each is a `setI` and an advance, of the address itself or of 5 times V[x]. -/
theorem addressRegisterLoads : Obligations.AddressRegisterLoads := fun s x nnn =>
  ⟨fun strict => ⟨decode_wordFNNN_ldI strict nnn, decode_wordFXNN_ldF strict x⟩,
    ⟨_, rfl, addrOperand_toNat nnn, rfl, s.setI_advance_unchangedBut_i_pc _⟩,
    ⟨_, rfl, zext16_mul_five_toNat (s.reg x), rfl, s.setI_advance_unchangedBut_i_pc _⟩⟩

end Sys2Proof.Machine
end

section
/-! PROOFS. 44_keys_timers.md: a timer access (R243, R245, R246) is read off three facts: its word, the frame of the one write
it makes before the advance, and what the timer update at the end of the step leaves in a timer. -/
namespace Sys2Proof

theorem decode_wordFXNN_ldVDt (strict : Bool) (x : Nibble) : decode strict (wordFXNN 0xF x 0x07) = .ok (.ldVDt x) := by
  simp [decode, decodeFamilyF]

theorem decode_wordFXNN_ldDtV (strict : Bool) (x : Nibble) : decode strict (wordFXNN 0xF x 0x15) = .ok (.ldDtV x) := by
  simp [decode, decodeFamilyF]

theorem decode_wordFXNN_ldStV (strict : Bool) (x : Nibble) : decode strict (wordFXNN 0xF x 0x18) = .ok (.ldStV x) := by
  simp [decode, decodeFamilyF]

end Sys2Proof

namespace Sys2Proof.Machine

/-! ## The frames -/

theorem State.setReg_unchangedBut_v (s : State) (x : Nibble) (b : Byte) : UnchangedBut [.v] s (s.setReg x b) := by
  intro p hp
  cases p with
  | v => exact absurd (List.mem_singleton_self _) hp
  | mem => exact fun _ => rfl
  | _ => rfl

theorem State.setReg_regsUnchangedBut (s : State) (x : Nibble) (b : Byte) : RegsUnchangedBut [x] s (s.setReg x b) :=
  fun r hr => s.reg_setReg_other x r b (List.ne_of_not_mem_cons hr)

theorem State.setDt_unchangedBut_dt (s : State) (b : Byte) : UnchangedBut [.dt] s (s.setDt b) := by
  intro p hp
  cases p with
  | dt => exact absurd (List.mem_singleton_self _) hp
  | v | mem => exact fun _ => rfl
  | _ => rfl

theorem State.setSt_unchangedBut_st (s : State) (b : Byte) : UnchangedBut [.st] s (s.setSt b) := by
  intro p hp
  cases p with
  | st => exact absurd (List.mem_singleton_self _) hp
  | v | mem => exact fun _ => rfl
  | _ => rfl

/-- R93: an advance adds `pc` to what may have changed. -/
theorem UnchangedBut.advance {p : Part} {s t : State} (h : UnchangedBut [p] s t) :
    UnchangedBut [p, .pc] s t.advance := by
  intro q hq
  have hsame : q.Same s t := h q fun hqp => hq (List.mem_append_left [Part.pc] hqp)
  cases q with
  | pc => exact absurd (by simp) hq
  | _ => exact hsame

/-! ## The end of the step -/

/-- R281: a timer stops at 0, as the subtraction of natural numbers does. -/
theorem tick_toNat (t : Byte) : (tick t).toNat = t.toNat - 1 := by
  unfold tick
  split <;> bv_omega

/-- R92: the timer update follows an instruction that raised no error. -/
theorem step_of_exec_eq_next {s u : State} {i : Instr} (hs : s.fault = none) (hd : fetchDecode s = .ok i)
    (he : exec i s = .next u) (hu : u.fault = none) : step s = .next u.timerUpdate := by
  rw [step_of_ok s i hs hd, he, endStep, if_pos hu]

/-! ## The statement -/

/-- Settles O39: each access is one write and an advance, which leave the latch alone, so that the step adds the timer update;
`tick_toNat` gives the timer after it. -/
theorem timerAccess : Obligations.TimerAccess := fun s x =>
  ⟨fun strict => ⟨decode_wordFXNN_ldVDt strict x, decode_wordFXNN_ldDtV strict x, decode_wordFXNN_ldStV strict x⟩,
    ⟨_, rfl, s.reg_setReg_same x s.dt, rfl, s.setReg_regsUnchangedBut x s.dt, (s.setReg_unchangedBut_v x s.dt).advance⟩,
    ⟨_, rfl, rfl, rfl, (s.setDt_unchangedBut_dt (s.reg x)).advance⟩,
    ⟨_, rfl, rfl, rfl, (s.setSt_unchangedBut_st (s.reg x)).advance⟩,
    fun hs =>
      ⟨fun hd => ⟨_, step_of_exec_eq_next hs hd rfl hs, s.reg_setReg_same x s.dt, tick_toNat s.dt⟩,
        fun hd => ⟨_, step_of_exec_eq_next hs hd rfl hs, tick_toNat (s.reg x)⟩,
        fun hd => ⟨_, step_of_exec_eq_next hs hd rfl hs, tick_toNat (s.reg x)⟩⟩⟩

end Sys2Proof.Machine
end

section
/-! PROOFS. 60_exceptions.md: of all that a step can do, only an instruction run without an error leaves the latch empty, and
the timer update is then the end of the step (R281). -/
namespace Sys2Proof.Machine

/-- R281: the timer update writes the two timers and nothing else. -/
theorem State.timerUpdate_unchangedBut_dt_st (s : State) : UnchangedBut [.dt, .st] s s.timerUpdate := by
  intro p hp
  cases p with
  | dt | st => exact absurd hp (by decide)
  | v | mem => exact fun _ => rfl
  | _ => rfl

/-- R92, R281: a step to a state with no error decoded an instruction, ran it, and updated the timers of what it left. -/
theorem exec_of_step_eq_next {s t : State} (hstep : step s = .next t) (ht : t.fault = none) :
    ∃ i u, fetchDecode s = .ok i ∧ exec i s = .next u ∧ t = u.timerUpdate := by
  rcases step_cases s with ⟨_, _, h⟩ | ⟨_, _, _, h⟩ | ⟨_, _, _, _, _, h⟩ | ⟨i, u, _, hd, hexec, _, h⟩ <;>
    cases h.symm.trans hstep
  · cases ht
  · cases ht
  · exact ⟨i, u, hd, hexec, rfl⟩

/-- Settles O12: the instruction is the one the step ran, and `tick_toNat` gives each timer after the update. -/
theorem timerUpdateEndsTheStep : Obligations.TimerUpdateEndsTheStep := by
  intro s t hstep ht
  obtain ⟨i, u, hd, hexec, rfl⟩ := exec_of_step_eq_next hstep ht
  exact ⟨i, u, hd, hexec, tick_toNat u.dt, tick_toNat u.st, u.timerUpdate_unchangedBut_dt_st⟩

end Sys2Proof.Machine
end

section
/-! PROOFS. 70_reset_and_hazards.md: `loadProgram` is one run of writes at 0x200, or the error of an image too long (R313,
R314); `readByte_writeBytes` says what memory reads as after the run. -/
namespace Sys2Proof.Machine

theorem loadProgram_of_length_le (s : State) (bytes : List Byte) (h : bytes.length ≤ 3584) :
    loadProgram bytes s = .next (s.writeBytes progBase bytes) :=
  if_neg (Nat.not_lt.mpr h)

theorem loadProgram_of_length_gt (s : State) (bytes : List Byte) (h : bytes.length > 3584) :
    loadProgram bytes s = .fault (.imageTooLarge bytes.length) :=
  if_pos h

theorem State.MemCanonical.rising {s : State} (h : s.MemCanonical) : s.mem.Pairwise fun c d => c.1 < d.1 :=
  h.1

theorem State.readByte_writeBytes_inside (s : State) (base : Nat) (bytes : List Byte) (hm : s.MemCanonical) (k : Nat)
    (hk : k < bytes.length) : (s.writeBytes base bytes).readByte (base + k) = bytes[k] := by
  rw [s.readByte_writeBytes base bytes (base + k) hm.rising, if_pos (Nat.le_add_right base k), Nat.add_sub_cancel_left,
    List.getElem?_eq_getElem hk, Option.getD_some]

theorem State.readByte_writeBytes_outside (s : State) (base : Nat) (bytes : List Byte) (hm : s.MemCanonical) (p : Nat)
    (hp : p < base ∨ base + bytes.length ≤ p) : (s.writeBytes base bytes).readByte p = s.readByte p := by
  rw [s.readByte_writeBytes base bytes p hm.rising]
  rcases hp with hbelow | habove
  · exact if_neg (Nat.not_le.mpr hbelow)
  · rw [List.getElem?_eq_none (by omega), Option.getD_none, ite_self]

theorem State.writeBytes_unchangedBut_mem (s : State) (base : Nat) (bytes : List Byte) :
    UnchangedBut [.mem] s (s.writeBytes base bytes) := by
  rw [s.writeBytes_eq base bytes]
  intro p hp
  cases p with
  | mem => exact absurd (List.mem_singleton_self _) hp
  | v => exact fun _ => rfl
  | _ => rfl

/-- Settles O42: an image that fits is a run of writes at 0x200, read inside and outside it; the configuration plays no part. -/
theorem loadProgramCopiesTheImage : Obligations.LoadProgramCopiesTheImage := fun s bytes hm =>
  ⟨fun hfits => ⟨_, loadProgram_of_length_le s bytes hfits, s.readByte_writeBytes_inside progBase bytes hm,
      s.readByte_writeBytes_outside progBase bytes hm, s.writeBytes_unchangedBut_mem progBase bytes⟩,
    loadProgram_of_length_gt s bytes⟩

end Sys2Proof.Machine
end

section
/-! PROOFS. 30_encoding.md: encode and decode undo each other (R80, R84, R85). In a split of `decode`, the case `h_k` is the
family k - 1. -/
namespace Sys2Proof

/-- Settles O1: the fields of a word put together from fields are those fields, and they lead the decoder to the
constructor's own arm. -/
theorem decodeUndoesEncode : Obligations.DecodeUndoesEncode := by
  intro strict i
  cases i with
  | cls | ret => cases strict <;> rfl
  | seReg | sneReg => simp [encode, decode, decodePair]
  | ldReg | or | and | xor | addReg | sub | shr | subn | shl => simp [encode, decode, decodeFamily8]
  | skp | sknp => simp [encode, decode, decodeFamilyE]
  | ldVDt | ldVK | ldDtV | ldStV | addI | ldF | ldB | ldMemV | ldVMem => simp [encode, decode, decodeFamilyF]
  | _ => simp [encode, decode]

/-- Settles O5: each word is the word of its instruction. -/
theorem exampleWordsDecode : Obligations.ExampleWordsDecode := fun strict =>
  have h := decodeUndoesEncode strict
  ⟨h .ret, h (.jp 0x234), h (.seImm 3 0x42), h (.seReg 1 2), h (.ldImm 0 0x05), h (.addReg 0 1), h (.sub 1 2), h (.shl 4 4),
    h (.ldI 0x300), h (.jpV0 0xFFF), h (.rnd 3 0x0F), h (.drw 0 1 5), h (.skp 1), h (.ldVDt 3), h (.ldB 3), h (.ldMemV 2)⟩

/-! ## A word from its own fields -/

theorem wordFNNN_fields (w : Word) : wordFNNN (highNibble w) (fieldNNN w) = w := by
  unfold wordFNNN highNibble fieldNNN
  rw [BitVec.extractLsb'_append_extractLsb'_eq_extractLsb' (by decide)]
  exact BitVec.extractLsb'_eq_self

theorem wordFXNN_fields (w : Word) : wordFXNN (highNibble w) (fieldX w) (fieldNN w) = w := by
  unfold wordFXNN highNibble fieldX fieldNN
  rw [BitVec.extractLsb'_append_extractLsb'_eq_extractLsb' (by decide),
    BitVec.extractLsb'_append_extractLsb'_eq_extractLsb' (by decide)]
  exact BitVec.extractLsb'_eq_self

theorem wordFXYN_fields (w : Word) : wordFXYN (highNibble w) (fieldX w) (fieldY w) (fieldN w) = w := by
  unfold wordFXYN highNibble fieldX fieldY fieldN
  rw [BitVec.extractLsb'_append_extractLsb'_eq_extractLsb' (by decide),
    BitVec.extractLsb'_append_extractLsb'_eq_extractLsb' (by decide),
    BitVec.extractLsb'_append_extractLsb'_eq_extractLsb' (by decide)]
  exact BitVec.extractLsb'_eq_self

theorem highNibble_toNat (w : Word) : (highNibble w).toNat = w.toNat / 0x1000 := by
  rw [highNibble, BitVec.extractLsb'_toNat, Nat.shiftRight_eq_div_pow]
  omega

theorem fieldNN_toNat (w : Word) : (fieldNN w).toNat = w.toNat % 0x100 := by
  simp [fieldNN, BitVec.extractLsb'_toNat]

theorem fieldN_toNat (w : Word) : (fieldN w).toNat = w.toNat % 0x10 := by
  simp [fieldN, BitVec.extractLsb'_toNat]

theorem wordFXNN_toNat (f x : Nibble) (nn : Byte) :
    (wordFXNN f x nn).toNat = f.toNat * 0x1000 + x.toNat * 0x100 + nn.toNat := by
  unfold wordFXNN
  rw [BitVec.toNat_append, BitVec.toNat_append, ← Nat.shiftLeft_add_eq_or_of_lt nn.isLt,
    ← Nat.shiftLeft_add_eq_or_of_lt x.isLt, Nat.shiftLeft_eq, Nat.shiftLeft_eq]
  omega

theorem wordFXYN_toNat (f x y n : Nibble) :
    (wordFXYN f x y n).toNat = f.toNat * 0x1000 + x.toNat * 0x100 + y.toNat * 0x10 + n.toNat := by
  unfold wordFXYN
  rw [BitVec.toNat_append, BitVec.toNat_append, BitVec.toNat_append, ← Nat.shiftLeft_add_eq_or_of_lt n.isLt,
    ← Nat.shiftLeft_add_eq_or_of_lt y.isLt, ← Nat.shiftLeft_add_eq_or_of_lt x.isLt, Nat.shiftLeft_eq, Nat.shiftLeft_eq,
    Nat.shiftLeft_eq]
  omega

theorem toNat_eq_fields (w : Word) :
    w.toNat = (highNibble w).toNat * 0x1000 + (fieldX w).toNat * 0x100 + (fieldNN w).toNat := by
  rw [← wordFXNN_toNat, wordFXNN_fields]

/-! ## Encode after strict decode -/

section
variable {w : Word} {f : Nibble}

theorem wordFNNN_eq (hf : (highNibble w).toNat = f.toNat) : wordFNNN f (fieldNNN w) = w := by
  rw [← BitVec.eq_of_toNat_eq hf, wordFNNN_fields]

theorem wordFXNN_eq {nn : Byte} (hf : (highNibble w).toNat = f.toNat) (hnn : (fieldNN w).toNat = nn.toNat) :
    wordFXNN f (fieldX w) nn = w := by
  rw [← BitVec.eq_of_toNat_eq hf, ← BitVec.eq_of_toNat_eq hnn, wordFXNN_fields]

theorem wordFXYN_eq {n : Nibble} (hf : (highNibble w).toNat = f.toNat) (hn : (fieldN w).toNat = n.toNat) :
    wordFXYN f (fieldX w) (fieldY w) n = w := by
  rw [← BitVec.eq_of_toNat_eq hf, ← BitVec.eq_of_toNat_eq hn, wordFXYN_fields]

end

theorem encode_of_decodeFamily0 {w : Word} {i : Instr} (hf : (highNibble w).toNat = 0)
    (h : decodeFamily0 true w = .ok i) : encode i = w := by
  have hw : wordFXNN 0 (fieldX w) (fieldNN w) = w := wordFXNN_eq hf rfl
  unfold decodeFamily0 at h
  split at h
  · cases h
  next hx =>
    rw [← hw, show fieldX w = 0 by simpa using hx]
    split at h
    next hnn => cases h; rw [hnn]; rfl
    next =>
      split at h
      next hnn => cases h; rw [hnn]; rfl
      next => cases h

theorem encode_of_decodePair {w : Word} {i : Instr} {f : Nibble} {op : Nibble → Nibble → Instr}
    (hop : ∀ x y, encode (op x y) = wordFXYN f x y 0) (hf : (highNibble w).toNat = f.toNat)
    (h : decodePair true w op = .ok i) : encode i = w := by
  unfold decodePair at h
  split at h
  · cases h
  next hn =>
    cases h
    rw [hop]
    exact wordFXYN_eq hf (by rw [show fieldN w = 0 by simpa using hn])

theorem encode_of_decodeFamily8 {w : Word} {i : Instr} (hf : (highNibble w).toNat = 8)
    (h : decodeFamily8 w = .ok i) : encode i = w := by
  unfold decodeFamily8 at h
  split at h <;> cases h <;> exact wordFXYN_eq hf ‹_›

theorem encode_of_decodeFamilyE {w : Word} {i : Instr} (hf : (highNibble w).toNat = 0xE)
    (h : decodeFamilyE w = .ok i) : encode i = w := by
  unfold decodeFamilyE at h
  split at h <;> cases h <;> exact wordFXNN_eq hf ‹_›

theorem encode_of_decodeFamilyF {w : Word} {i : Instr} (hf : (highNibble w).toNat = 0xF)
    (h : decodeFamilyF w = .ok i) : encode i = w := by
  unfold decodeFamilyF at h
  split at h <;> cases h <;> exact wordFXNN_eq hf ‹_›

/-- Settles O2: each arm of the decoder has fixed the fields that the encoder writes itself, and kept the others as
operands. -/
theorem encodeUndoesStrictDecode : Obligations.EncodeUndoesStrictDecode := by
  intro w i h
  unfold decode at h
  split at h
  case h_1 hf => exact encode_of_decodeFamily0 hf h
  case h_6 hf => exact encode_of_decodePair (f := 5) (fun _ _ => rfl) hf h
  case h_9 hf => exact encode_of_decodeFamily8 hf h
  case h_10 hf => exact encode_of_decodePair (f := 9) (fun _ _ => rfl) hf h
  case h_15 hf => exact encode_of_decodeFamilyE hf h
  case h_16 =>
    have := (highNibble w).isLt
    exact encode_of_decodeFamilyF (by grind) h
  case h_14 hf =>
    cases h
    exact wordFXYN_eq hf rfl
  case h_2 | h_3 | h_11 | h_12 =>
    cases h
    exact wordFNNN_eq ‹_›
  case h_4 | h_5 | h_7 | h_8 | h_13 =>
    cases h
    exact wordFXNN_eq ‹_› rfl

end Sys2Proof
end

section
/-! PROOFS. opcode_table.json: the rows that accept a word are those of its family, and among them the decoder's choice; and
the words that no row accepts, by family (30_encoding.md R84, R86, R87). -/
namespace Sys2Proof

/-! ## A word under a mask, by its fields -/

theorem nibble_and_ones (x : Nibble) : x &&& 0xF = x := BitVec.and_allOnes

theorem byte_and_ones (b : Byte) : b &&& 0xFF = b := BitVec.and_allOnes

theorem and_F000_eq_iff (w p : Word) : w &&& 0xF000#16 = p ↔
    (highNibble w).toNat = p.toNat / 0x1000 ∧ p.toNat % 0x1000 = 0 := by
  have h : w &&& 0xF000#16 = wordFXNN (highNibble w) 0#4 0#8 := by
    conv_lhs => rw [← wordFXNN_fields w]
    exact (wordFXNN_and _ _ 0xF 0#4 _ 0#8).trans (by rw [nibble_and_ones, BitVec.and_zero, BitVec.and_zero])
  rw [h, ← BitVec.toNat_inj, wordFXNN_toNat, BitVec.toNat_ofNat, BitVec.toNat_ofNat]
  omega

theorem and_F00F_eq_iff (w p : Word) : w &&& 0xF00F#16 = p ↔
    (highNibble w).toNat = p.toNat / 0x1000 ∧ (fieldN w).toNat = p.toNat % 0x10 ∧ p.toNat / 0x10 % 0x100 = 0 := by
  have h : w &&& 0xF00F#16 = wordFXYN (highNibble w) 0#4 0#4 (fieldN w) := by
    conv_lhs => rw [← wordFXYN_fields w]
    exact (wordFXYN_and _ _ _ _ 0xF 0#4 0#4 0xF).trans
      (by rw [nibble_and_ones, nibble_and_ones, BitVec.and_zero, BitVec.and_zero])
  rw [h, ← BitVec.toNat_inj, wordFXYN_toNat, BitVec.toNat_ofNat]
  omega

theorem and_F0FF_eq_iff (w p : Word) : w &&& 0xF0FF#16 = p ↔
    (highNibble w).toNat = p.toNat / 0x1000 ∧ (fieldNN w).toNat = p.toNat % 0x100 ∧ p.toNat / 0x100 % 0x10 = 0 := by
  have h : w &&& 0xF0FF#16 = wordFXNN (highNibble w) 0#4 (fieldNN w) := by
    conv_lhs => rw [← wordFXNN_fields w]
    exact (wordFXNN_and _ _ 0xF 0#4 _ 0xFF).trans (by rw [nibble_and_ones, byte_and_ones, BitVec.and_zero])
  rw [h, ← BitVec.toNat_inj, wordFXNN_toNat, BitVec.toNat_ofNat]
  omega

theorem and_FFFF_eq_iff (w p : Word) : w &&& 0xFFFF#16 = p ↔
    (highNibble w).toNat = p.toNat / 0x1000 ∧ (fieldX w).toNat = p.toNat / 0x100 % 0x10 ∧
      (fieldNN w).toNat = p.toNat % 0x100 := by
  have h : w &&& 0xFFFF#16 = w := BitVec.and_allOnes
  rw [h]
  conv_lhs => rw [← wordFXNN_fields w]
  rw [← BitVec.toNat_inj, wordFXNN_toNat]
  omega

/-! ## The rows that accept a word, and the decoder's choice -/

/-- The mnemonics of the rows that accept a word. -/
def acceptedNames (strict : Bool) (w : Word) : List String :=
  (opcodeRows.filter (·.accepts strict w)).map (·.mnemonic)

/-- The mnemonic that the decoder answers, if it answers one. -/
def decodedName : Except DecodeError Instr → List String
  | .ok i => [i.mnemonic]
  | .error _ => []

/-- The rows of one family: those whose pattern has the high nibble `f`. -/
def familyRows (f : Nat) : List OpcodeRow := opcodeRows.filter fun r => r.pattern.toNat / 0x1000 = f

/-- Every mask covers the high nibble. -/
theorem highNibble_of_accepts {strict : Bool} {w : Word} {r : OpcodeRow} (hr : r ∈ opcodeRows)
    (h : r.accepts strict w = true) : r.pattern.toNat / 0x1000 = (highNibble w).toNat := by
  have masks : ∀ r ∈ opcodeRows, ∀ strict : Bool, highNibble (if strict then r.mask else r.maskLenient) = 0xF := by decide
  have hand : w &&& (if strict then r.mask else r.maskLenient) = r.pattern := beq_iff_eq.mp h
  rw [← highNibble_toNat, ← hand, highNibble, BitVec.extractLsb'_and]
  exact congrArg BitVec.toNat ((congrArg (highNibble w &&& ·) (masks r hr strict)).trans (nibble_and_ones _))

theorem acceptedNames_eq {strict : Bool} {w : Word} {f : Nat} (hf : (highNibble w).toNat = f) :
    acceptedNames strict w = ((familyRows f).filter (·.accepts strict w)).map (·.mnemonic) := by
  unfold acceptedNames familyRows
  rw [List.filter_filter]
  congr 1
  refine List.filter_congr fun r hr => ?_
  cases h : r.accepts strict w with
  | false => rfl
  | true => simp [highNibble_of_accepts hr h, hf]

theorem acceptedNames_of_single {strict : Bool} {w : Word} {f : Nat} {name : String} {p : Word}
    (hf : (highNibble w).toNat = f) (hrow : familyRows f = [opcodeRow name p 0xF000#16]) (hp : p.toNat = f * 0x1000) :
    acceptedNames strict w = [name] := by
  have hw : w &&& 0xF000#16 = p := (and_F000_eq_iff w p).mpr (by omega)
  rw [acceptedNames_eq hf, hrow]
  simp [opcodeRow, OpcodeRow.accepts, hw]

theorem acceptedNames_pair {strict : Bool} {w : Word} {f : Nat} {name : String} {p : Word}
    {op : Nibble → Nibble → Instr} (hop : ∀ x y, (op x y).mnemonic = name) (hf : (highNibble w).toNat = f)
    (hrow : familyRows f = [⟨name, p, 0xF00F#16, 0xF000#16⟩]) (hp : p.toNat = f * 0x1000) :
    acceptedNames strict w = decodedName (decodePair strict w op) := by
  rw [acceptedNames_eq hf, hrow]
  cases strict with
  | false =>
    have hw : w &&& 0xF000#16 = p := (and_F000_eq_iff w p).mpr (by omega)
    simp [OpcodeRow.accepts, decodePair, decodedName, hw, hop]
  | true =>
    have hw : w &&& 0xF00F#16 = p ↔ fieldN w = 0 := by
      rw [and_F00F_eq_iff, ← BitVec.toNat_inj, show (0 : Nibble).toNat = 0 from rfl]
      omega
    by_cases hn : fieldN w = 0
    · simp [OpcodeRow.accepts, decodePair, decodedName, hw.mpr hn, hn, hop]
    · simp [OpcodeRow.accepts, decodePair, decodedName, mt hw.mp hn, show fieldN w ≠ 0#4 from hn]

theorem acceptedNames_family0 {strict : Bool} {w : Word} (hf : (highNibble w).toNat = 0) :
    acceptedNames strict w = decodedName (decodeFamily0 strict w) := by
  have hrows : familyRows 0 = [⟨"CLS", 0x00E0, 0xFFFF, 0xF0FF⟩, ⟨"RET", 0x00EE, 0xFFFF, 0xF0FF⟩] := rfl
  rw [acceptedNames_eq hf, hrows]
  have hE0 : fieldNN w = 0xE0 ↔ (fieldNN w).toNat = 0xE0 := BitVec.toNat_inj.symm
  have hEE : fieldNN w = 0xEE ↔ (fieldNN w).toNat = 0xEE := BitVec.toNat_inj.symm
  have hx : fieldX w = 0 ↔ (fieldX w).toNat = 0 := BitVec.toNat_inj.symm
  simp only [decodeFamily0, hE0, hEE, hx, ne_eq]
  cases strict with
  | false =>
    simp only [Bool.false_eq_true, false_and, if_false]
    split_ifs <;> simp [OpcodeRow.accepts, and_F0FF_eq_iff, decodedName, Instr.mnemonic, *]
  | true =>
    simp only [true_and]
    split_ifs <;> simp [OpcodeRow.accepts, and_FFFF_eq_iff, decodedName, Instr.mnemonic, *]

theorem acceptedNames_family8 {strict : Bool} {w : Word} (hf : (highNibble w).toNat = 8) :
    acceptedNames strict w = decodedName (decodeFamily8 w) := by
  have hrows : familyRows 8 = opcodeRowsAlu := rfl
  rw [acceptedNames_eq hf, hrows]
  unfold decodeFamily8
  split <;> simp_all [opcodeRowsAlu, opcodeRow, OpcodeRow.accepts, and_F00F_eq_iff, decodedName, Instr.mnemonic]

theorem acceptedNames_familyE {strict : Bool} {w : Word} (hf : (highNibble w).toNat = 0xE) :
    acceptedNames strict w = decodedName (decodeFamilyE w) := by
  have hrows : familyRows 0xE = opcodeRowsMisc.take 2 := rfl
  rw [acceptedNames_eq hf, hrows]
  unfold decodeFamilyE
  split <;> simp_all [opcodeRowsMisc, opcodeRow, OpcodeRow.accepts, and_F0FF_eq_iff, decodedName, Instr.mnemonic]

theorem acceptedNames_familyF {strict : Bool} {w : Word} (hf : (highNibble w).toNat = 0xF) :
    acceptedNames strict w = decodedName (decodeFamilyF w) := by
  have hrows : familyRows 0xF = opcodeRowsMisc.drop 2 := rfl
  rw [acceptedNames_eq hf, hrows]
  unfold decodeFamilyF
  split <;> simp_all [opcodeRowsMisc, opcodeRow, OpcodeRow.accepts, and_F0FF_eq_iff, decodedName, Instr.mnemonic]

/-- Settles O3: the rows that accept a word are rows of its family, and family by family they are the decoder's choice. -/
theorem decodeAgreesWithOpcodeTable : Obligations.DecodeAgreesWithOpcodeTable := by
  intro strict w
  show acceptedNames strict w = decodedName (decode strict w)
  unfold decode
  split
  case h_1 hf => exact acceptedNames_family0 hf
  case h_6 hf => exact acceptedNames_pair (fun _ _ => rfl) hf rfl rfl
  case h_9 hf => exact acceptedNames_family8 hf
  case h_10 hf => exact acceptedNames_pair (fun _ _ => rfl) hf rfl rfl
  case h_15 hf => exact acceptedNames_familyE hf
  case h_16 =>
    have := (highNibble w).isLt
    exact acceptedNames_familyF (by grind)
  all_goals exact acceptedNames_of_single ‹_› rfl rfl

/-! ## The words that decode refuses (R87) -/

theorem decodeFamily0_eq_error (strict : Bool) (w : Word) :
    decodeFamily0 strict w = .error (.unknownOpcode w) ↔
      strict = true ∧ fieldX w ≠ 0 ∨ (fieldNN w).toNat ≠ 0xE0 ∧ (fieldNN w).toNat ≠ 0xEE := by
  simp only [decodeFamily0, ← BitVec.toNat_inj]
  split
  · simp_all
  · split
    · simp_all
    · split <;> simp_all

theorem decodePair_eq_error (strict : Bool) (w : Word) (op : Nibble → Nibble → Instr) :
    decodePair strict w op = .error (.unknownOpcode w) ↔ strict = true ∧ (fieldN w).toNat ≠ 0 := by
  have hn : fieldN w = 0 ↔ (fieldN w).toNat = 0 := BitVec.toNat_inj.symm
  simp only [decodePair, ne_eq, hn]
  split <;> simp_all

theorem decodeFamily8_eq_error (w : Word) : decodeFamily8 w = .error (.unknownOpcode w) ↔
    (fieldN w).toNat ∈ [0x8, 0x9, 0xA, 0xB, 0xC, 0xD, 0xF] := by
  have := (fieldN w).isLt
  unfold decodeFamily8
  split <;> simp_all
  omega

theorem decodeFamilyE_eq_error (w : Word) : decodeFamilyE w = .error (.unknownOpcode w) ↔
    (fieldNN w).toNat ∉ [0x9E, 0xA1] := by
  unfold decodeFamilyE
  split <;> simp_all

theorem decodeFamilyF_eq_error (w : Word) : decodeFamilyF w = .error (.unknownOpcode w) ↔
    (fieldNN w).toNat ∉ [0x07, 0x0A, 0x15, 0x18, 0x1E, 0x29, 0x33, 0x55, 0x65] := by
  unfold decodeFamilyF
  split <;> simp_all

/-- Settles O4: in each family, the words refused are those its own arm of the decoder refuses. -/
theorem illegalWordsAreThoseListed : Obligations.IllegalWordsAreThoseListed := by
  intro strict w
  have hw := toNat_eq_fields w
  dsimp only
  rw [← highNibble_toNat, ← fieldNN_toNat, ← fieldN_toNat]
  unfold decode
  split
  case h_1 hf =>
    have hx : fieldX w = 0 ↔ (fieldX w).toNat = 0 := BitVec.toNat_inj.symm
    rw [decodeFamily0_eq_error, ne_eq, hx]
    cases strict with
    | false => simp [hf]
    | true => simp [hf]; omega
  case h_6 hf | h_10 hf => simp [decodePair_eq_error, hf]
  case h_9 hf => simp [decodeFamily8_eq_error, hf]
  case h_15 hf => simp [decodeFamilyE_eq_error, hf]
  case h_16 =>
    have hf : (highNibble w).toNat = 0xF := by have := (highNibble w).isLt; grind
    simp [decodeFamilyF_eq_error, hf]
  all_goals simp [*]

end Sys2Proof
end

section
/-! PROOFS. 10_state.md: what each instruction writes (R20, R23), put together from the frame of each operation on the state. -/
namespace Sys2Proof.Machine

/-! ## Frames, one after another -/

section
variable {ps qs : List Part} {s t u : State}

theorem Part.Same.trans {p : Part} (h : p.Same s t) (h' : p.Same t u) : p.Same s u := by
  cases p with
  | v | mem => exact fun a => (h' a).trans (h a)
  | _ => exact Eq.trans h' h

theorem UnchangedBut.trans (h : UnchangedBut ps s t) (h' : UnchangedBut qs t u) : UnchangedBut (qs ++ ps) s u :=
  fun p hp => (h p fun hps => hp (List.mem_append_right qs hps)).trans (h' p fun hqs => hp (List.mem_append_left ps hqs))

theorem UnchangedBut.mono (h : UnchangedBut ps s t) (hsub : ∀ p ∈ ps, p ∈ qs) : UnchangedBut qs s t :=
  fun p hp => h p (mt (hsub p) hp)

theorem UnchangedBut.setPc (h : UnchangedBut ps s t) (a : Word) : UnchangedBut (.pc :: ps) s (t.setPc a) :=
  h.trans (t.setPc_unchangedBut_pc a)

/-- What an instruction that may raise an error wrote, when it raised none. -/
theorem UnchangedBut.of_fault_eq (h : UnchangedBut ps s t) (hf : t.fault = s.fault)
    (hsub : ∀ p ∈ ps, p = .fault ∨ p ∈ qs) : UnchangedBut qs s t := by
  intro p hp
  by_cases hps : p ∈ ps
  · rcases hsub p hps with rfl | hqs
    · exact hf
    · exact absurd hqs hp
  · exact h p hps

end

/-! ## The frame of each operation -/

section
variable (s : State)

theorem State.fault_unchangedBut (e : Fault) : UnchangedBut [.fault] s { s with fault := some e } := by
  intro p hp
  cases p with
  | fault => exact absurd (List.mem_singleton_self _) hp
  | v | mem => exact fun _ => rfl
  | _ => rfl

theorem State.redrawWith_unchangedBut (d : Display) : UnchangedBut [.disp, .redraw] s (s.redrawWith d) := by
  intro p hp
  cases p with
  | disp | redraw => exact absurd hp (by decide)
  | v | mem => exact fun _ => rfl
  | _ => rfl

theorem State.pop_unchangedBut : UnchangedBut [.sp] s s.pop := by
  intro p hp
  cases p with
  | sp => exact absurd (List.mem_singleton_self _) hp
  | v | mem => exact fun _ => rfl
  | _ => rfl

theorem State.push_unchangedBut (a : Word) (h : s.sp.val < 16) : UnchangedBut [.stack, .sp] s (s.push a h) := by
  intro p hp
  cases p with
  | stack | sp => exact absurd hp (by decide)
  | v | mem => exact fun _ => rfl
  | _ => rfl

theorem State.setI_unchangedBut (a : Word) : UnchangedBut [.i] s (s.setI a) := by
  intro p hp
  cases p with
  | i => exact absurd (List.mem_singleton_self _) hp
  | v | mem => exact fun _ => rfl
  | _ => rfl

theorem State.countDraw_unchangedBut : UnchangedBut [.draws] s s.countDraw := by
  intro p hp
  cases p with
  | draws => exact absurd (List.mem_singleton_self _) hp
  | v | mem => exact fun _ => rfl
  | _ => rfl

/-- An operation that changes V alone. -/
theorem State.unchangedBut_v_of_eq (t : State) (h : t = { s with v := t.v }) : UnchangedBut [.v] s t := by
  intro p hp
  rw [h]
  cases p with
  | v => exact absurd (List.mem_singleton_self _) hp
  | mem => exact fun _ => rfl
  | _ => rfl

end

/-! ## What a load and a store can lead to -/

theorem State.withLoad_eq_next {s t : State} {base n : Nat} {k : List Byte → State} (h : s.withLoad base n k = .next t) :
    (base + n ≤ memSize ∨ n = 0) ∧ t = k (s.readBytes base n) ∨
      (memSize < base + n ∧ n ≠ 0) ∧ t = { s with fault := some (.outOfBounds .read (max base 0x1000) s.pc) } := by
  rcases s.withLoad_cases base n k with ⟨hb, hk⟩ | ⟨hb, he⟩
  · cases hk.symm.trans h
    exact .inl ⟨hb, rfl⟩
  · cases he.symm.trans h
    exact .inr ⟨hb, rfl⟩

theorem State.withStore_eq_next {s t : State} {base : Nat} {bytes : List Byte} {k : State → State} (hb : bytes ≠ [])
    (h : s.withStore base bytes k = .next t) :
    (base + bytes.length ≤ memSize ∧ ¬ (base < progBase ∧ s.cfg.reservedWrite = .fault)) ∧
        t = k (s.writeBytes base bytes) ∨
      (base < progBase ∧ s.cfg.reservedWrite = .fault) ∧
        t = { s with fault := some (.outOfBounds .reservedWrite base s.pc) } ∨
      (memSize < base + bytes.length ∧ ¬ (base < progBase ∧ s.cfg.reservedWrite = .fault)) ∧
        t = { s with fault := some (.outOfBounds .write (max base 0x1000) s.pc) } := by
  rcases s.withStore_cases base bytes k hb with ⟨hin, hk⟩ | ⟨hres, he⟩ | ⟨hout, he⟩
  · cases hk.symm.trans h
    exact .inl ⟨hin, rfl⟩
  · cases he.symm.trans h
    exact .inr (.inl ⟨hres, rfl⟩)
  · cases he.symm.trans h
    exact .inr (.inr ⟨hout, rfl⟩)

theorem bcdDigits_ne_nil (b : Byte) : bcdDigits b ≠ [] := by simp [bcdDigits]

/-! ## The pieces of state -/

theorem execRet_unchangedBut {s t : State} (h : execRet s = .next t) : UnchangedBut [.pc, .sp, .fault] s t := by
  unfold execRet at h
  split at h <;> cases h
  · exact (s.fault_unchangedBut _).mono (by decide)
  · exact (s.pop_unchangedBut.setPc _).mono (by decide)

theorem execCall_unchangedBut {s t : State} {nnn : Addr} (h : execCall nnn s = .next t) :
    UnchangedBut [.pc, .stack, .sp, .fault] s t := by
  unfold execCall at h
  split at h <;> cases h
  · exact ((s.push_unchangedBut _ _).setPc _).mono (by decide)
  · exact (s.fault_unchangedBut _).mono (by decide)

theorem execLdVK_unchangedBut {s t : State} {x : Nibble} (h : execLdVK x s = .next t) : UnchangedBut [.pc, .v] s t := by
  unfold execLdVK at h
  split at h <;> cases h
  · exact (s.setReg_unchangedBut_v x _).setPc _
  · exact fun p _ => by cases p <;> simp [Part.Same]

theorem execDrw_unchangedBut {s t : State} {x y n : Nibble} (h : execDrw x y n s = .next t) :
    UnchangedBut [.pc, .v, .disp, .redraw, .fault] s t := by
  rcases State.withLoad_eq_next h with ⟨_, rfl⟩ | ⟨_, rfl⟩
  · exact (((s.unchangedBut_v_of_eq _ (s.setFlag_eq _)).trans (State.redrawWith_unchangedBut _ _)).setPc _).mono (by decide)
  · exact (s.fault_unchangedBut _).mono (by decide)

theorem execLdB_unchangedBut {s t : State} {x : Nibble} (h : execLdB x s = .next t) :
    UnchangedBut [.pc, .mem, .fault] s t := by
  rcases State.withStore_eq_next (bcdDigits_ne_nil _) h with ⟨_, rfl⟩ | ⟨_, rfl⟩ | ⟨_, rfl⟩
  · exact ((s.writeBytes_unchangedBut_mem _ _).setPc _).mono (by decide)
  · exact (s.fault_unchangedBut _).mono (by decide)
  · exact (s.fault_unchangedBut _).mono (by decide)

theorem execLdMemV_unchangedBut {s t : State} {x : Nibble} (h : execLdMemV x s = .next t) :
    UnchangedBut [.pc, .i, .mem, .fault] s t := by
  rcases State.withStore_eq_next (s.regsUpTo_ne_nil x) h with ⟨_, rfl⟩ | ⟨_, rfl⟩ | ⟨_, rfl⟩
  · exact (((s.writeBytes_unchangedBut_mem _ _).trans (State.setI_unchangedBut _ _)).setPc _).mono (by decide)
  · exact (s.fault_unchangedBut _).mono (by decide)
  · exact (s.fault_unchangedBut _).mono (by decide)

theorem execLdVMem_unchangedBut {s t : State} {x : Nibble} (h : execLdVMem x s = .next t) :
    UnchangedBut [.pc, .i, .v, .fault] s t := by
  rcases State.withLoad_eq_next h with ⟨_, rfl⟩ | ⟨_, rfl⟩
  · exact (((s.unchangedBut_v_of_eq _ (s.setRegs_eq _ _)).trans (State.setI_unchangedBut _ _)).setPc _).mono (by decide)
  · exact (s.fault_unchangedBut _).mono (by decide)

/-- Settles O47: a meaning is a chain of operations on the state, and the pieces it may write are those of the chain. -/
theorem partsWrittenAreThoseOfTheRules : Obligations.PartsWrittenAreThoseOfTheRules := by
  intro i s t h
  cases i with
  | ret => exact execRet_unchangedBut h
  | call => exact execCall_unchangedBut h
  | ldVK => exact execLdVK_unchangedBut h
  | drw => exact execDrw_unchangedBut h
  | ldB => exact execLdB_unchangedBut h
  | ldMemV => exact execLdMemV_unchangedBut h
  | ldVMem => exact execLdVMem_unchangedBut h
  | cls => cases h; exact (s.redrawWith_unchangedBut _).setPc _
  | jp | jpV0 | seImm | sneImm | seReg | sneReg | skp | sknp => cases h; exact s.setPc_unchangedBut_pc _
  | ldImm | addImm | ldReg | or | and | xor | ldVDt => cases h; exact (s.setReg_unchangedBut_v _ _).setPc _
  | addReg | sub | shr | subn | shl =>
    cases h; exact (s.unchangedBut_v_of_eq _ (s.setResultAndFlag_eq _ _ _)).setPc _
  | rnd => cases h; exact (s.countDraw_unchangedBut.trans (State.setReg_unchangedBut_v _ _ _)).setPc _
  | ldI | addI | ldF => cases h; exact (s.setI_unchangedBut _).setPc _
  | ldDtV => cases h; exact (s.setDt_unchangedBut_dt _).setPc _
  | ldStV => cases h; exact (s.setSt_unchangedBut_st _).setPc _

/-! ## The general registers -/

theorem State.setResultAndFlag_regsUnchangedBut (s : State) (x : Nibble) (r : Byte) (f : Bool) :
    RegsUnchangedBut [x, flagReg] s (s.setResultAndFlag x r f) := by
  intro q hq
  simp only [List.mem_cons, List.not_mem_nil, or_false, not_or] at hq
  rw [State.reg_setResultAndFlag, if_neg hq.2, if_neg hq.1]

theorem State.setRegs_regsUnchangedBut (s : State) (x : Nibble) (bytes : List Byte) (hb : bytes.length = x.toNat + 1) :
    RegsUnchangedBut ((List.range (x.toNat + 1)).map (BitVec.ofNat 4)) s (s.setRegs 0 bytes) := by
  intro q hq
  have hlen : x.toNat < q.toNat := by
    by_contra hle
    exact hq (List.mem_map.mpr ⟨q.toNat, List.mem_range.mpr (by omega), BitVec.ofNat_toNat .. ▸ BitVec.setWidth_eq q⟩)
  rw [State.reg_setRegs s 0 bytes q (by omega), if_pos (Nat.zero_le _), List.getElem?_eq_none (by omega)]
  rfl

/-- Settles O46: an instruction that does not write V writes no register, and each of the others writes those its own
operation on V names. -/
theorem registersWrittenAreThoseOfTheTable : Obligations.RegistersWrittenAreThoseOfTheTable := by
  intro i s t h
  cases i with
  | ldImm | addImm | ldReg | or | and | xor | ldVDt => cases h; exact s.setReg_regsUnchangedBut _ _
  | rnd => cases h; exact s.countDraw.setReg_regsUnchangedBut _ _
  | addReg | sub | shr | subn | shl => cases h; exact s.setResultAndFlag_regsUnchangedBut _ _ _
  | ldVK x =>
    simp only [exec, execLdVK] at h
    split at h <;> cases h
    · exact s.setReg_regsUnchangedBut _ _
    · exact fun _ _ => rfl
  | drw x y n =>
    have h : execDrw x y n s = .next t := h
    rcases State.withLoad_eq_next h with ⟨_, rfl⟩ | ⟨_, rfl⟩
    · exact s.setReg_regsUnchangedBut flagReg _
    · exact fun _ _ => rfl
  | ldVMem x =>
    have h : execLdVMem x s = .next t := h
    rcases State.withLoad_eq_next h with ⟨_, rfl⟩ | ⟨_, rfl⟩
    · exact s.setRegs_regsUnchangedBut x _ (s.readBytes_length _ _)
    · exact fun _ _ => rfl
  | _ => exact fun r _ => partsWrittenAreThoseOfTheRules _ s t h .v (by simp [Instr.partsWritten]) r

/-! ## Keys and parameters -/

theorem exec_key_cfg {i : Instr} {s t : State} (h : exec i s = .next t) : t.key = s.key ∧ t.cfg = s.cfg := by
  rcases exec_cases i s with ⟨e, he⟩ | ⟨u, hu, _, hkey, hcfg⟩
  · cases he.symm.trans h
    exact ⟨rfl, rfl⟩
  · cases hu.symm.trans h
    exact ⟨hkey, hcfg⟩

/-- What a step that answers a next state did: it took an error of the fetch or of decode, took an instruction's own error, or
ran an instruction and updated the timers. -/
theorem step_eq_next {s t : State} (h : step s = .next t) : s.fault = none ∧
    ((∃ e, fetchDecode s = .error e ∧ t = { s with fault := some e }) ∨
      (∃ i e, fetchDecode s = .ok i ∧ exec i s = .next { s with fault := some e } ∧ t = { s with fault := some e }) ∨
      ∃ i u, fetchDecode s = .ok i ∧ exec i s = .next u ∧ u.fault = none ∧ t = u.timerUpdate) := by
  rcases step_cases s with ⟨_, _, hs⟩ | ⟨e, hf, hd, hs⟩ | ⟨i, e, hf, hd, he, hs⟩ | ⟨i, u, hf, hd, hu, huf, hs⟩ <;>
    cases hs.symm.trans h
  · exact ⟨hf, .inl ⟨e, hd, rfl⟩⟩
  · exact ⟨hf, .inr (.inl ⟨i, e, hd, he, rfl⟩)⟩
  · exact ⟨hf, .inr (.inr ⟨i, u, hd, hu, huf, rfl⟩)⟩

/-- Settles O48: of all that a step can do, taking an error and the timer update write neither, and no instruction does. -/
theorem stepNeverWritesKeysOrParameters : Obligations.StepNeverWritesKeysOrParameters := by
  intro s t h
  rcases (step_eq_next h).2 with ⟨_, _, rfl⟩ | ⟨i, _, _, _, rfl⟩ | ⟨i, u, _, hu, _, rfl⟩
  · exact ⟨rfl, rfl⟩
  · exact ⟨rfl, rfl⟩
  · obtain ⟨hkey, hcfg⟩ := exec_key_cfg hu
    exact ⟨hkey, hcfg⟩

end Sys2Proof.Machine
end

section
/-! PROOFS. 20_memory.md: an instruction leaves memory as it was or makes one run of checked writes; so memory stays canonical
(R50) and the reserved bytes are protected (R60). -/
namespace Sys2Proof.Machine

theorem State.readByte_congr {s t : State} (hmem : t.mem = s.mem) (hcfg : t.cfg = s.cfg) (p : Nat) :
    t.readByte p = s.readByte p := by
  rw [State.readByte, State.readByte, hmem, hcfg]

theorem State.MemCanonical.congr {s t : State} (hs : s.MemCanonical) (hmem : t.mem = s.mem) (hcfg : t.cfg = s.cfg) :
    t.MemCanonical := by
  rw [State.MemCanonical, hmem, hcfg]
  exact hs

theorem State.MemCanonical.writeBytes {s : State} (hs : s.MemCanonical) {base : Nat} {bytes : List Byte}
    (hb : base + bytes.length ≤ memSize) : (s.writeBytes base bytes).MemCanonical := by
  rw [State.MemCanonical, State.writeBytes_cfg]
  exact s.writeBytes_wf base bytes hb hs

/-- What an instruction does to memory: nothing, or a run of writes whose addresses have all been checked (R59 to R63). -/
theorem exec_mem_cases {i : Instr} {s t : State} (h : exec i s = .next t) :
    t.mem = s.mem ∨ ∃ base bytes, base + bytes.length ≤ memSize ∧ ¬ (base < progBase ∧ s.cfg.reservedWrite = .fault) ∧
      t.mem = (s.writeBytes base bytes).mem := by
  cases i with
  | ret =>
    simp only [exec, execRet] at h
    split at h <;> cases h <;> exact .inl rfl
  | call =>
    simp only [exec, execCall] at h
    split at h <;> cases h <;> exact .inl rfl
  | ldVK =>
    simp only [exec, execLdVK] at h
    split at h <;> cases h <;> exact .inl rfl
  | drw x y n =>
    have h : execDrw x y n s = .next t := h
    rcases State.withLoad_eq_next h with ⟨_, rfl⟩ | ⟨_, rfl⟩ <;> exact .inl rfl
  | ldVMem x =>
    have h : execLdVMem x s = .next t := h
    rcases State.withLoad_eq_next h with ⟨_, rfl⟩ | ⟨_, rfl⟩
    · exact .inl (s.setRegs_mem _ _)
    · exact .inl rfl
  | ldB x =>
    have h : execLdB x s = .next t := h
    rcases State.withStore_eq_next (bcdDigits_ne_nil _) h with ⟨⟨hb, hr⟩, rfl⟩ | ⟨_, rfl⟩ | ⟨_, rfl⟩
    · exact .inr ⟨_, _, hb, hr, rfl⟩
    · exact .inl rfl
    · exact .inl rfl
  | ldMemV x =>
    have h : execLdMemV x s = .next t := h
    rcases State.withStore_eq_next (s.regsUpTo_ne_nil x) h with ⟨⟨hb, hr⟩, rfl⟩ | ⟨_, rfl⟩ | ⟨_, rfl⟩
    · exact .inr ⟨_, _, hb, hr, rfl⟩
    · exact .inl rfl
    · exact .inl rfl
  | _ => cases h; exact .inl rfl

theorem exec_memCanonical {i : Instr} {s t : State} (hs : s.MemCanonical) (h : exec i s = .next t) : t.MemCanonical := by
  obtain ⟨_, hcfg⟩ := exec_key_cfg h
  rcases exec_mem_cases h with hmem | ⟨base, bytes, hb, _, hmem⟩
  · exact hs.congr hmem hcfg
  · exact (hs.writeBytes hb).congr hmem (hcfg.trans (s.writeBytes_cfg base bytes).symm)

/-- Settles O53: an error and the timer update leave memory alone, and every instruction keeps the form. -/
theorem stepKeepsMemoryCanonical : Obligations.StepKeepsMemoryCanonical := by
  intro s t hs h
  rcases (step_eq_next h).2 with ⟨_, _, rfl⟩ | ⟨_, _, _, _, rfl⟩ | ⟨i, u, _, hu, _, rfl⟩
  · exact hs
  · exact hs
  · show u.MemCanonical
    exact exec_memCanonical hs hu

/-! ## The reserved bytes -/

/-- R60: under `FAULT` every write that is made lies at 0x200 or above. -/
theorem exec_readByte_reserved {i : Instr} {s t : State} (hs : s.MemCanonical) (hr : s.cfg.reservedWrite = .fault)
    (h : exec i s = .next t) {p : Nat} (hp : p < progBase) : t.readByte p = s.readByte p := by
  obtain ⟨_, hcfg⟩ := exec_key_cfg h
  rcases exec_mem_cases h with hmem | ⟨base, bytes, _, hbase, hmem⟩
  · exact State.readByte_congr hmem hcfg p
  · have hlow : p < base := by
      have : ¬ base < progBase := fun hlt => hbase ⟨hlt, hr⟩
      omega
    rw [State.readByte_congr hmem (hcfg.trans (s.writeBytes_cfg base bytes).symm)]
    exact s.readByte_writeBytes_outside base bytes hs p (.inl hlow)

theorem loadProgram_eq_next {bytes : List Byte} {s t : State} (h : loadProgram bytes s = .next t) :
    bytes.length ≤ maxImage ∧ t = s.writeBytes progBase bytes := by
  unfold loadProgram at h
  split at h <;> cases h
  exact ⟨by omega, rfl⟩

/-- Settles O49: an instruction writes at 0x200 or above, an image goes to 0x200 and up, and no other action writes memory. -/
theorem reservedBytesAreProtected : Obligations.ReservedBytesAreProtected := by
  intro a s t hs hr ha h p hp
  cases a with
  | step =>
    rcases (step_eq_next h).2 with ⟨_, _, rfl⟩ | ⟨_, _, _, _, rfl⟩ | ⟨i, u, _, hu, _, rfl⟩
    · rfl
    · rfl
    · exact exec_readByte_reserved hs hr hu hp
  | writeKey | clearRedraw => cases h; rfl
  | loadProgram bytes =>
    obtain ⟨_, rfl⟩ := loadProgram_eq_next h
    exact s.readByte_writeBytes_outside progBase bytes hs p (.inl hp)
  | reset => exact absurd rfl ha

end Sys2Proof.Machine
end

section
/-! PROOFS. 10_state.md R25: `pc` stays at or below 0x10FE and every pushed frame at or below 0xFFE. -/
namespace Sys2Proof.Machine

/-- R57: an instruction that was fetched lies below 0xFFF. -/
theorem pc_lt_of_fetchDecode {s : State} {i : Instr} (h : fetchDecode s = .ok i) : s.pc.toNat + 1 ≤ 0xFFF := by
  by_contra hpc
  simp [fetchDecode, fetch_of_outOfBounds s (by omega)] at h

theorem State.skipIf_pc_le (s : State) (c : Bool) (hpc : s.pc.toNat + 1 ≤ 0xFFF) : (s.skipIf c).pc.toNat ≤ 0x10FE := by
  rw [State.skipIf_pc_toNat]
  split <;> omega

theorem State.advance_pc_le (s : State) (hpc : s.pc.toNat + 1 ≤ 0xFFF) : (s.pc + 2).toNat ≤ 0x10FE := by
  bv_omega

theorem exec_pc_le_of_not_setsPc {i : Instr} {s t : State} (hpc : s.pc.toNat + 1 ≤ 0xFFF) (h : exec i s = .next t)
    (hi : ¬ i.SetsPc) : t.pc.toNat ≤ 0x10FE := by
  rcases exec_advancesOrRaises i s hi with ⟨e, he⟩ | ⟨u, hu, hupc⟩
  · cases he.symm.trans h
    exact (by omega : s.pc.toNat ≤ 0x10FE)
  · cases hu.symm.trans h
    exact hupc ▸ s.advance_pc_le hpc

/-- R25: no instruction but RET, whose target is a frame, can lead above 0x10FE. -/
theorem exec_pc_le {i : Instr} {s t : State} (hi : i ≠ .ret) (hpc : s.pc.toNat + 1 ≤ 0xFFF) (h : exec i s = .next t) :
    t.pc.toNat ≤ 0x10FE := by
  cases i with
  | ret => exact absurd rfl hi
  | jp nnn => cases h; exact (addrOperand_toNat nnn).trans_le (by omega)
  | call nnn =>
    simp only [exec, execCall] at h
    split at h <;> cases h
    · exact (addrOperand_toNat nnn).trans_le (by omega)
    · exact (by omega : s.pc.toNat ≤ 0x10FE)
  | jpV0 nnn => cases h; exact (zext16_add_addrOperand_toNat (s.reg 0) nnn).trans_le (by omega)
  | seImm | sneImm | seReg | sneReg | skp | sknp => cases h; exact s.skipIf_pc_le _ hpc
  | ldVK =>
    simp only [exec, execLdVK] at h
    split at h <;> cases h
    · exact s.advance_pc_le hpc
    · omega
  | _ => exact exec_pc_le_of_not_setsPc hpc h id

theorem execCall_pcInRange {s t : State} {nnn : Addr} (hs : s.PcInRange) (hpc : s.pc.toNat + 1 ≤ 0xFFF)
    (h : execCall nnn s = .next t) : t.PcInRange := by
  refine ⟨exec_pc_le (i := .call nnn) (by simp) hpc h, fun k hk => ?_⟩
  unfold execCall at h
  split at h <;> cases h
  · have hk : k.val < s.sp.val + 1 := hk
    show ((s.stack.set s.sp.val s.pc)[k.val]).toNat ≤ 0xFFE
    rw [Vector.getElem_set]
    split
    · omega
    · exact hs.2 k (by omega)
  · exact hs.2 k hk

theorem execRet_pcInRange {s t : State} (hs : s.PcInRange) (h : execRet s = .next t) : t.PcInRange := by
  unfold execRet at h
  split at h <;> cases h
  · exact hs
  next hsp =>
    refine ⟨?_, fun k hk => hs.2 k ?_⟩
    · have htop : (s.top hsp).toNat ≤ 0xFFE := hs.2 ⟨s.sp.val - 1, by omega⟩ (show s.sp.val - 1 < s.sp.val by omega)
      show (s.top hsp + 2).toNat ≤ 0x10FE
      bv_omega
    · have hk : k.val < s.sp.val - 1 := hk
      omega

theorem exec_pcInRange {i : Instr} {s t : State} (hs : s.PcInRange) (hpc : s.pc.toNat + 1 ≤ 0xFFF)
    (h : exec i s = .next t) : t.PcInRange := by
  have hframe := partsWrittenAreThoseOfTheRules i s t h
  cases i with
  | call => exact execCall_pcInRange hs hpc h
  | ret => exact execRet_pcInRange hs h
  | _ =>
    have hstack : t.stack = s.stack := hframe .stack (by simp [Instr.partsWritten])
    have hsp : t.sp = s.sp := hframe .sp (by simp [Instr.partsWritten])
    refine ⟨exec_pc_le (by simp) hpc h, ?_⟩
    rw [hstack, hsp]
    exact hs.2

/-- Settles O54: an error leaves `pc` and the stack alone; an instruction that runs was fetched, so `pc` was below 0xFFF. -/
theorem stepKeepsPcInRange : Obligations.StepKeepsPcInRange := by
  intro s t hs h
  rcases (step_eq_next h).2 with ⟨_, _, rfl⟩ | ⟨_, _, _, _, rfl⟩ | ⟨i, u, hd, hu, _, rfl⟩
  · exact hs
  · exact hs
  · show u.PcInRange
    exact exec_pcInRange hs (pc_lt_of_fetchDecode hd) hu

/-! ## The host's actions -/

/-- Settles O52: reset memory lists nothing, `pc` is 0x200, and no frame is pushed. -/
theorem resetIsWellKept : Obligations.ResetIsWellKept := fun c _ =>
  ⟨Memory.wf_nil c.font, (by decide : (0x200#16).toNat ≤ 0x10FE), fun _ hk => absurd hk (Nat.not_lt_zero _)⟩

/-- Settles O55: a step and a reset are settled; a key write and a redraw clear touch neither; an image lies inside memory. -/
theorem hostActionsKeepStatesWellKept : Obligations.HostActionsKeepStatesWellKept := by
  intro a s t hm hp h
  cases a with
  | step => exact ⟨stepKeepsMemoryCanonical s t hm h, stepKeepsPcInRange s t hp h⟩
  | writeKey | clearRedraw => cases h; exact ⟨hm, hp⟩
  | loadProgram bytes =>
    obtain ⟨hlen, rfl⟩ := loadProgram_eq_next h
    refine ⟨hm.writeBytes (Nat.add_le_add_left hlen progBase), ?_⟩
    rw [s.writeBytes_eq]
    exact hp
  | reset => cases h; exact resetIsWellKept s.cfg s.draws

end Sys2Proof.Machine
end

section
/-! PROOFS. 10_state.md: two runs of one instruction that differ in ST, in `redraw`, in the keys or in the stack alone (R27, R29,
R31, R33, R34). -/
namespace Sys2Proof.Machine

/-- The second state is the first with other values of ST, `redraw`, the keys and the stack, each of which may differ only when
it is listed. -/
inductive DiffersOnlyIn (parts : List Part) (s : State) : State → Prop where
  | mk (st : Byte) (redraw : Bool) (key : Vector Bool 16) (stack : Vector Word 16)
      (hst : .st ∈ parts ∨ st = s.st) (hredraw : .redraw ∈ parts ∨ redraw = s.redraw)
      (hkey : .key ∈ parts ∨ key = s.key) (hstack : .stack ∈ parts ∨ stack = s.stack) :
      DiffersOnlyIn parts s { s with st := st, redraw := redraw, key := key, stack := stack }

/-! ## Loads and stores read none of the four -/

theorem State.readBytes_congr {s u : State} (hmem : u.mem = s.mem) (hcfg : u.cfg = s.cfg) (base n : Nat) :
    u.readBytes base n = s.readBytes base n :=
  List.map_congr_left fun _ _ => State.readByte_congr hmem hcfg _

/-- Two loads go on with the same bytes or raise the same error. -/
theorem DiffersOnlyIn.withLoad {parts : List Part} {s u t : State} (hsu : DiffersOnlyIn parts s u)
    {base n : Nat} {k : List Byte → State} (h : s.withLoad base n k = .next t) :
    (∃ bytes, t = k bytes ∧ ∀ k', u.withLoad base n k' = .next (k' bytes)) ∨
      ∃ e, t = { s with fault := some e } ∧ ∀ k', u.withLoad base n k' = .next { u with fault := some e } := by
  have hcheck : u.checkRead = s.checkRead := by cases hsu; rfl
  have hread : u.readBytes base n = s.readBytes base n := by cases hsu; rfl
  unfold State.withLoad at h ⊢
  rw [hcheck, hread]
  split at h <;> cases h
  next e _ => exact .inr ⟨e, rfl, fun _ => rfl⟩
  next => exact .inl ⟨_, rfl, fun _ => rfl⟩

/-- Two stores both store or raise the same error. -/
theorem DiffersOnlyIn.withStore {parts : List Part} {s u t : State} (hsu : DiffersOnlyIn parts s u)
    {base : Nat} {bytes : List Byte} {k : State → State} (h : s.withStore base bytes k = .next t) :
    (t = k (s.writeBytes base bytes) ∧ ∀ k', u.withStore base bytes k' = .next (k' (u.writeBytes base bytes))) ∨
      ∃ e, t = { s with fault := some e } ∧ ∀ k', u.withStore base bytes k' = .next { u with fault := some e } := by
  have hcheck : u.checkWrite = s.checkWrite := by cases hsu; rfl
  unfold State.withStore at h ⊢
  rw [hcheck]
  split at h <;> cases h
  next e _ => exact .inr ⟨e, rfl, fun _ => rfl⟩
  next => exact .inl ⟨rfl, fun _ => rfl⟩

section
variable {parts : List Part} {s u : State}

theorem DiffersOnlyIn.fault (h : DiffersOnlyIn parts s u) (e : Fault) :
    DiffersOnlyIn parts { s with fault := some e } { u with fault := some e } := by
  obtain ⟨a, b, k, c, hst, hredraw, hkey, hstack⟩ := h
  exact .mk a b k c hst hredraw hkey hstack

theorem DiffersOnlyIn.advance (h : DiffersOnlyIn parts s u) : DiffersOnlyIn parts s.advance u.advance := by
  obtain ⟨a, b, k, c, hst, hredraw, hkey, hstack⟩ := h
  exact .mk a b k c hst hredraw hkey hstack

theorem DiffersOnlyIn.addI (h : DiffersOnlyIn parts s u) (d : Word) :
    DiffersOnlyIn parts (s.setI (s.i + d + 1)) (u.setI (u.i + d + 1)) := by
  obtain ⟨a, b, k, c, hst, hredraw, hkey, hstack⟩ := h
  exact .mk a b k c hst hredraw hkey hstack

theorem DiffersOnlyIn.writeByte (h : DiffersOnlyIn parts s u) (p : Nat) (v : Byte) :
    DiffersOnlyIn parts (s.writeByte p v) (u.writeByte p v) := by
  obtain ⟨a, b, k, c, hst, hredraw, hkey, hstack⟩ := h
  exact .mk a b k c hst hredraw hkey hstack

theorem DiffersOnlyIn.setReg (h : DiffersOnlyIn parts s u) (x : Nibble) (v : Byte) :
    DiffersOnlyIn parts (s.setReg x v) (u.setReg x v) := by
  obtain ⟨a, b, k, c, hst, hredraw, hkey, hstack⟩ := h
  exact .mk a b k c hst hredraw hkey hstack

theorem DiffersOnlyIn.writeBytes (h : DiffersOnlyIn parts s u) (base : Nat) (bytes : List Byte) :
    DiffersOnlyIn parts (s.writeBytes base bytes) (u.writeBytes base bytes) := by
  induction bytes generalizing s u base with
  | nil => exact h
  | cons b bs ih => exact ih (h.writeByte base b) (base + 1)

theorem DiffersOnlyIn.setRegs (h : DiffersOnlyIn parts s u) (n : Nat) (bytes : List Byte) :
    DiffersOnlyIn parts (s.setRegs n bytes) (u.setRegs n bytes) := by
  induction bytes generalizing s u n with
  | nil => exact h
  | cons b bs ih => exact ih (h.setReg (BitVec.ofNat 4 n) b) (n + 1)

theorem DiffersOnlyIn.timerUpdate (h : DiffersOnlyIn parts s u) : DiffersOnlyIn parts s.timerUpdate u.timerUpdate := by
  obtain ⟨a, b, k, c, hst, hredraw, hkey, hstack⟩ := h
  exact .mk (tick a) b k c (hst.imp_right (congrArg tick)) hredraw hkey hstack

end

/-- Two runs of an instruction from states that differ in pieces it does not read end in states that differ in those pieces
alone. -/
theorem exec_differsOnlyIn {i : Instr} {s t u : State} {parts : List Part} (hsu : DiffersOnlyIn parts s u)
    (hkeys : i.ReadsKeys → .key ∉ parts) (hret : i = .ret → .stack ∉ parts)
    (h : exec i s = .next t) : ∃ w, exec i u = .next w ∧ DiffersOnlyIn parts t w := by
  obtain ⟨a, b, k, c, hst, hredraw, hkey, hstack⟩ := id hsu
  cases i with
  | ret =>
    obtain rfl := hstack.resolve_left (hret rfl)
    simp only [exec, execRet] at h ⊢
    split at h <;> cases h
    next hsp => exact ⟨_, dif_pos hsp, .mk a b k _ hst hredraw hkey hstack⟩
    next hsp => exact ⟨_, dif_neg hsp, .mk a b k _ hst hredraw hkey hstack⟩
  | call nnn =>
    simp only [exec, execCall] at h ⊢
    split at h <;> cases h
    next hsp => exact ⟨_, dif_pos hsp, .mk a b k _ hst hredraw hkey (hstack.imp_right fun hc => by rw [hc]; rfl)⟩
    next hsp => exact ⟨_, dif_neg hsp, .mk a b k c hst hredraw hkey hstack⟩
  | skp x =>
    obtain rfl := hkey.resolve_left (hkeys ⟨x, .inl rfl⟩)
    cases h
    exact ⟨_, rfl, .mk a b _ c hst hredraw hkey hstack⟩
  | sknp x =>
    obtain rfl := hkey.resolve_left (hkeys ⟨x, .inr (.inl rfl)⟩)
    cases h
    exact ⟨_, rfl, .mk a b _ c hst hredraw hkey hstack⟩
  | ldVK x =>
    obtain rfl := hkey.resolve_left (hkeys ⟨x, .inr (.inr rfl)⟩)
    have hlowest : State.lowestKey { s with st := a, redraw := b, key := s.key, stack := c } = s.lowestKey := rfl
    simp only [exec, execLdVK, hlowest] at h ⊢
    split at h <;> cases h <;> exact ⟨_, rfl, .mk a b _ c hst hredraw hkey hstack⟩
  | drw x y n =>
    simp only [exec, execDrw] at h ⊢
    rcases hsu.withLoad h with ⟨bytes, rfl, hw⟩ | ⟨e, rfl, hw⟩
    · exact ⟨_, hw _, .mk a _ k c hst (.inr rfl) hkey hstack⟩
    · exact ⟨_, hw _, hsu.fault e⟩
  | ldVMem x =>
    simp only [exec, execLdVMem] at h ⊢
    rcases hsu.withLoad h with ⟨bytes, rfl, hw⟩ | ⟨e, rfl, hw⟩
    · exact ⟨_, hw _, (hsu.setRegs 0 bytes).addI _ |>.advance⟩
    · exact ⟨_, hw _, hsu.fault e⟩
  | ldB x =>
    simp only [exec, execLdB] at h ⊢
    rcases hsu.withStore h with ⟨rfl, hw⟩ | ⟨e, rfl, hw⟩
    · exact ⟨_, hw _, (hsu.writeBytes _ _).advance⟩
    · exact ⟨_, hw _, hsu.fault e⟩
  | ldMemV x =>
    simp only [exec, execLdMemV] at h ⊢
    rcases hsu.withStore h with ⟨rfl, hw⟩ | ⟨e, rfl, hw⟩
    · exact ⟨_, hw _, (hsu.writeBytes _ _).addI _ |>.advance⟩
    · exact ⟨_, hw _, hsu.fault e⟩
  | cls => cases h; exact ⟨_, rfl, .mk a true k c hst (.inr rfl) hkey hstack⟩
  | ldStV x => cases h; exact ⟨_, rfl, .mk (s.reg x) b k c (.inr rfl) hredraw hkey hstack⟩
  | _ => cases h; exact ⟨_, rfl, .mk a b k c hst hredraw hkey hstack⟩

/-- Settles O50: each clause is a difference in one piece, which stays one in that piece; no instruction writes a key. -/
theorem unreadPiecesDoNotMatter : Obligations.UnreadPiecesDoNotMatter := by
  intro i s t h
  refine ⟨fun b => ?_, fun b => ?_, fun hi keys => ?_⟩
  · have hsu : DiffersOnlyIn [.st] s { s with st := b } :=
      .mk b s.redraw s.key s.stack (.inl (by decide)) (.inr rfl) (.inr rfl) (.inr rfl)
    obtain ⟨_, hw, a, r, k, c, _, hr, hk, hc⟩ := exec_differsOnlyIn hsu (fun _ => by decide) (fun _ => by decide) h
    obtain ⟨rfl, rfl, rfl⟩ : r = t.redraw ∧ k = t.key ∧ c = t.stack :=
      ⟨hr.resolve_left (by decide), hk.resolve_left (by decide), hc.resolve_left (by decide)⟩
    exact ⟨_, hw, rfl⟩
  · have hsu : DiffersOnlyIn [.redraw] s { s with redraw := b } :=
      .mk s.st b s.key s.stack (.inr rfl) (.inl (by decide)) (.inr rfl) (.inr rfl)
    obtain ⟨_, hw, a, r, k, c, ha, _, hk, hc⟩ := exec_differsOnlyIn hsu (fun _ => by decide) (fun _ => by decide) h
    obtain ⟨rfl, rfl, rfl⟩ : a = t.st ∧ k = t.key ∧ c = t.stack :=
      ⟨ha.resolve_left (by decide), hk.resolve_left (by decide), hc.resolve_left (by decide)⟩
    exact ⟨_, hw, rfl⟩
  · have hsu : DiffersOnlyIn [.key] s { s with key := keys } :=
      .mk s.st s.redraw keys s.stack (.inr rfl) (.inr rfl) (.inl (by decide)) (.inr rfl)
    obtain ⟨_, hw, a, r, k, c, ha, hr, _, hc⟩ := exec_differsOnlyIn hsu (absurd · hi) (fun _ => by decide) h
    obtain ⟨rfl, rfl, rfl⟩ : a = t.st ∧ r = t.redraw ∧ c = t.stack :=
      ⟨ha.resolve_left (by decide), hr.resolve_left (by decide), hc.resolve_left (by decide)⟩
    obtain ⟨rfl, _⟩ := exec_key_cfg hw
    exact hw

/-! ## Dead stack slots (R29) -/

section
variable {s t u : State}

theorem State.SameButDeadFrames.fault (h : State.SameButDeadFrames s t) (e : Fault) :
    State.SameButDeadFrames { s with fault := some e } { t with fault := some e } := by
  obtain ⟨hst, hlive⟩ := h
  exact ⟨by rw [hst], hlive⟩

theorem State.SameButDeadFrames.timerUpdate (h : State.SameButDeadFrames s t) :
    State.SameButDeadFrames s.timerUpdate t.timerUpdate := by
  obtain ⟨hst, hlive⟩ := h
  exact ⟨by rw [hst]; rfl, hlive⟩

theorem State.SameButDeadFrames.fetchDecode (h : State.SameButDeadFrames s t) : fetchDecode t = fetchDecode s := by
  rw [h.1]; rfl

theorem execRet_sameButDeadFrames {s' : State} (h : State.SameButDeadFrames s t) (hs : execRet s = .next s') :
    ∃ t', execRet t = .next t' ∧ State.SameButDeadFrames s' t' := by
  obtain ⟨hst, hlive⟩ := h
  generalize t.stack = c at hst hlive
  subst hst
  unfold execRet at hs ⊢
  split at hs <;> cases hs
  next hsp => exact ⟨_, dif_pos hsp, rfl, hlive⟩
  next hsp =>
    have htop : State.top { s with stack := c } hsp = s.top hsp :=
      hlive ⟨s.sp.val - 1, by omega⟩ (show s.sp.val - 1 < s.sp.val by omega)
    refine ⟨_, dif_neg hsp, by rw [htop]; rfl, fun k hk => hlive k ?_⟩
    have hk : k.val < s.sp.val - 1 := hk
    omega

theorem execCall_sameButDeadFrames {s' : State} {nnn : Addr} (h : State.SameButDeadFrames s t)
    (hs : execCall nnn s = .next s') : ∃ t', execCall nnn t = .next t' ∧ State.SameButDeadFrames s' t' := by
  obtain ⟨hst, hlive⟩ := h
  generalize t.stack = c at hst hlive
  subst hst
  unfold execCall at hs ⊢
  split at hs <;> cases hs
  next hsp =>
    refine ⟨_, dif_pos hsp, rfl, fun k hk => ?_⟩
    have hk : k.val < s.sp.val + 1 := hk
    show (c.set s.sp.val s.pc)[k.val] = (s.stack.set s.sp.val s.pc)[k.val]
    rw [Vector.getElem_set, Vector.getElem_set]
    split
    · rfl
    · exact hlive k (by omega)
  next hsp => exact ⟨_, dif_neg hsp, rfl, hlive⟩

/-- An instruction that writes neither the stack nor `sp` carries the dead slots along. -/
theorem exec_sameButDeadFrames_of_not_written {i : Instr} {s' : State} (hstack : .stack ∉ i.partsWritten)
    (hsp : .sp ∉ i.partsWritten) (h : State.SameButDeadFrames s t) (hs : exec i s = .next s') :
    ∃ t', exec i t = .next t' ∧ State.SameButDeadFrames s' t' := by
  obtain ⟨hst, hlive⟩ := h
  have hdiff : DiffersOnlyIn [.stack] s t := by
    rw [hst]
    exact .mk s.st s.redraw s.key t.stack (.inr rfl) (.inr rfl) (.inr rfl) (.inl (by decide))
  have hret : i ≠ .ret := fun hi => hsp (hi ▸ by decide)
  obtain ⟨t', ht', hdiff'⟩ := exec_differsOnlyIn hdiff (fun _ => by decide) (absurd · hret) hs
  have hframe := partsWrittenAreThoseOfTheRules i s s' hs
  have hstack' : t'.stack = t.stack := partsWrittenAreThoseOfTheRules i t t' ht' .stack hstack
  refine ⟨t', ht', ?_, fun k hk => ?_⟩
  · obtain ⟨a, r, k, c, ha, hr, hk, _⟩ := hdiff'
    obtain ⟨rfl, rfl, rfl⟩ : a = s'.st ∧ r = s'.redraw ∧ k = s'.key :=
      ⟨ha.resolve_left (by decide), hr.resolve_left (by decide), hk.resolve_left (by decide)⟩
    rfl
  · rw [show s'.sp = s.sp from hframe .sp hsp] at hk
    rw [hstack', show s'.stack = s.stack from hframe .stack hstack]
    exact hlive k hk

theorem exec_sameButDeadFrames {i : Instr} {s' : State} (h : State.SameButDeadFrames s t) (hs : exec i s = .next s') :
    ∃ t', exec i t = .next t' ∧ State.SameButDeadFrames s' t' := by
  cases i with
  | ret => exact execRet_sameButDeadFrames h hs
  | call => exact execCall_sameButDeadFrames h hs
  | _ => exact exec_sameButDeadFrames_of_not_written (by simp [Instr.partsWritten]) (by simp [Instr.partsWritten]) h hs

end

/-- Settles O51: the two states fetch and decode alike; what the step then does, an error or an instruction, keeps the
relation. -/
theorem deadStackSlotsAreNotObservable : Obligations.DeadStackSlotsAreNotObservable := by
  intro s t s' h hstep
  obtain ⟨hs, hcases⟩ := step_eq_next hstep
  have ht : t.fault = none := by rw [h.1]; exact hs
  have hd := h.fetchDecode
  rcases hcases with ⟨e, hse, rfl⟩ | ⟨i, e, hsd, hse, rfl⟩ | ⟨i, u, hsd, hsu, hu, rfl⟩
  · exact ⟨_, step_of_error t e ht (hd.trans hse), h.fault e⟩
  · obtain ⟨t', ht', hrel⟩ := exec_sameButDeadFrames h hse
    have hfault : t'.fault = some e := by rw [hrel.1]
    refine ⟨t', ?_, hrel⟩
    rw [step_of_ok t i ht (hd.trans hsd), ht', endStep, if_neg (by simp [hfault])]
  · obtain ⟨t', ht', hrel⟩ := exec_sameButDeadFrames h hsu
    have hfault : t'.fault = none := by rw [hrel.1]; exact hu
    exact ⟨_, step_of_exec_eq_next ht (hd.trans hsd) ht' hfault, hrel.timerUpdate⟩

end Sys2Proof.Machine
end

section
/-! PROOFS. 30_encoding.md R92 and 60_exceptions.md: fetch and decode, what a step does with what they answer, and why a step
fails (R270 to R275). -/
namespace Sys2Proof.Machine

/-! ## Fetch and decode -/

section
variable {s : State} {w : Word}

theorem fetch_eq_ok (hpc : s.pc.toNat + 1 ≤ 0xFFF)
    (hw : w.toNat = (s.readByte s.pc.toNat).toNat * 256 + (s.readByte (s.pc.toNat + 1)).toNat) : fetch s = .ok w := by
  rw [fetch_of_inBounds s hpc, BitVec.eq_of_toNat_eq (hw.trans (wordOfBytes_toNat _ _).symm)]

theorem fetchDecode_of_fetch_error {e : Fault} (hf : fetch s = .error e) : fetchDecode s = .error e := by
  simp [fetchDecode, hf]

theorem fetchDecode_of_decode_error {e : DecodeError} (hf : fetch s = .ok w)
    (hd : decode s.cfg.strictDecode w = .error e) : fetchDecode s = .error (.unknownOpcode w s.pc) := by
  simp [fetchDecode, hf, hd]

theorem fetchDecode_of_decode_ok {i : Instr} (hf : fetch s = .ok w) (hd : decode s.cfg.strictDecode w = .ok i) :
    fetchDecode s = .ok i := by
  simp [fetchDecode, hf, hd]

theorem fetchDecode_eq_ok_iff {i : Instr} :
    fetchDecode s = .ok i ↔ ∃ w, fetch s = .ok w ∧ decode s.cfg.strictDecode w = .ok i := by
  refine ⟨fun h => ?_, fun ⟨_, hf, hd⟩ => fetchDecode_of_decode_ok hf hd⟩
  cases hf : fetch s with
  | error e => cases (fetchDecode_of_fetch_error hf).symm.trans h
  | ok w =>
    cases hd : decode s.cfg.strictDecode w with
    | error e => cases (fetchDecode_of_decode_error hf hd).symm.trans h
    | ok j =>
      cases (fetchDecode_of_decode_ok hf hd).symm.trans h
      exact ⟨w, rfl, hd⟩

end

theorem tick_eq (b : Byte) : tick b = if b = 0 then 0 else b - 1 := by
  unfold tick
  split <;> split <;> bv_omega

/-- Settles O7: the word at `pc` is the one fetched, and `endStep` is the timer update or nothing. -/
theorem stepRunsTheDecodedInstruction : Obligations.StepRunsTheDecodedInstruction := by
  intro s t w i hs hpc hw hdec hexec
  have hd : fetchDecode s = .ok i := fetchDecode_of_decode_ok (fetch_eq_ok hpc hw) hdec
  constructor
  · intro ht
    rw [step_of_exec_eq_next hs hd hexec ht, State.timerUpdate, tick_eq, tick_eq]
  · intro ht
    rw [step_of_ok s i hs hd, hexec, endStep, if_neg ht]

/-- Settles O8: fetch and decode answer these records, and a step takes what they answer. -/
theorem fetchAndDecodeErrorsAreTaken : Obligations.FetchAndDecodeErrorsAreTaken := fun s hs =>
  ⟨fun hpc => step_of_error s _ hs (fetchDecode_of_fetch_error (fetch_of_outOfBounds s hpc)),
    fun _ hpc hw hdec => step_of_error s _ hs (fetchDecode_of_decode_error (fetch_eq_ok hpc hw) hdec)⟩

/-! ## When a step stops, and what a failing one changes -/

/-- Settles O9: a halted core answers the stored error, and a running one answers a next state in each of its cases. -/
theorem stepStopsOnlyWhenHalted : Obligations.StepStopsOnlyWhenHalted := by
  intro s
  cases hs : s.fault with
  | some e =>
    simp [step_of_fault s e hs]
  | none =>
    have hnext : ∃ t, step s = .next t := by
      rcases step_cases s with ⟨e, he, _⟩ | ⟨e, _, _, h⟩ | ⟨i, e, _, _, _, h⟩ | ⟨i, u, _, _, _, _, h⟩
      · cases hs.symm.trans he
      all_goals exact ⟨_, h⟩
    obtain ⟨t, ht⟩ := hnext
    simp [ht]

/-- Settles O10: a step ends with an error by taking one, which changes the latch alone; the third way leaves it empty. -/
theorem failingStepChangesOnlyTheLatch : Obligations.FailingStepChangesOnlyTheLatch := by
  intro s t h ht
  rcases (step_eq_next h).2 with ⟨e, _, rfl⟩ | ⟨i, e, _, _, rfl⟩ | ⟨i, u, _, _, hu, rfl⟩
  · rfl
  · rfl
  · exact absurd hu ht

/-! ## The record of an error -/

theorem fetchDecode_error_explains {s : State} {e : Fault} (h : fetchDecode s = .error e) : e.Explains s := by
  cases hf : fetch s with
  | error e' =>
    cases (fetchDecode_of_fetch_error hf).symm.trans h
    by_cases hpc : s.pc.toNat + 1 ≤ 0xFFF
    · cases (fetch_of_inBounds s hpc).symm.trans hf
    · cases (fetch_of_outOfBounds s (by omega)).symm.trans hf
      exact ⟨rfl, rfl, by omega⟩
  | ok w =>
    cases hd : decode s.cfg.strictDecode w with
    | error e' =>
      cases (fetchDecode_of_decode_error hf hd).symm.trans h
      exact ⟨rfl, hf, fun i hi => by cases hd.symm.trans hi⟩
    | ok i => cases (fetchDecode_of_decode_ok hf hd).symm.trans h

theorem withLoad_error_explains {s t : State} {e : Fault} {base n : Nat} {k : List Byte → State}
    (h : s.withLoad base n k = .next t) (hk : ∀ bytes, (k bytes).fault = none) (ht : t.fault = some e)
    (hi : ∃ i, fetchDecode s = .ok i ∧ i.Loads) : e.Explains s := by
  rcases State.withLoad_eq_next h with ⟨_, rfl⟩ | ⟨_, rfl⟩
  · cases (hk _).symm.trans ht
  · cases ht
    exact ⟨rfl, by omega, hi⟩

theorem withStore_error_explains {s t : State} {e : Fault} {base : Nat} {bytes : List Byte} {k : State → State}
    (hb : bytes ≠ []) (h : s.withStore base bytes k = .next t) (hk : (k (s.writeBytes base bytes)).fault = none)
    (ht : t.fault = some e) (hi : ∃ i, fetchDecode s = .ok i ∧ i.Stores) : e.Explains s := by
  rcases State.withStore_eq_next hb h with ⟨_, rfl⟩ | ⟨⟨hbase, hr⟩, rfl⟩ | ⟨_, rfl⟩
  · cases hk.symm.trans ht
  · cases ht
    exact ⟨rfl, hbase, hr, hi⟩
  · cases ht
    exact ⟨rfl, by omega, hi⟩

/-- Six instructions can raise an error, each for the cause that its record names (R270). -/
theorem exec_error_explains {i : Instr} {s t : State} {e : Fault} (hs : s.fault = none) (hd : fetchDecode s = .ok i)
    (h : exec i s = .next t) (ht : t.fault = some e) : e.Explains s := by
  have hframe := partsWrittenAreThoseOfTheRules i s t h
  cases i with
  | ret =>
    simp only [exec, execRet] at h
    split at h <;> cases h
    next hsp => cases ht; exact ⟨rfl, hsp, hd⟩
    next => cases hs.symm.trans ht
  | call nnn =>
    simp only [exec, execCall] at h
    split at h <;> cases h
    next => cases hs.symm.trans ht
    next hsp => cases ht; exact ⟨rfl, by omega, nnn, hd⟩
  | drw x y n =>
    simp only [exec, execDrw] at h
    exact withLoad_error_explains h (fun _ => hs) ht ⟨_, hd, .inl ⟨x, y, n, rfl⟩⟩
  | ldVMem x =>
    simp only [exec, execLdVMem] at h
    exact withLoad_error_explains h (fun _ => by simpa using hs) ht ⟨_, hd, .inr ⟨x, rfl⟩⟩
  | ldB x => exact withStore_error_explains (bcdDigits_ne_nil _) h (by simpa using hs) ht ⟨_, hd, x, .inl rfl⟩
  | ldMemV x =>
    simp only [exec, execLdMemV] at h
    exact withStore_error_explains (s.regsUpTo_ne_nil x) h (by simpa using hs) ht ⟨_, hd, x, .inr rfl⟩
  | _ =>
    have hfault : t.fault = s.fault := hframe .fault (by simp [Instr.partsWritten])
    cases (hfault.trans hs).symm.trans ht

/-- Settles O11: the latch of a failing step holds the record of a fetch, of decode, or of the instruction that was run. -/
theorem errorRecordsExplainTheFailure : Obligations.ErrorRecordsExplainTheFailure := by
  intro s t e h ht
  obtain ⟨hs, hcases⟩ := step_eq_next h
  rcases hcases with ⟨e', hd, rfl⟩ | ⟨i, e', hd, hexec, rfl⟩ | ⟨i, u, _, _, hu, rfl⟩
  · cases ht
    exact fetchDecode_error_explains hd
  · have hexplains : e.Explains s := exec_error_explains hs hd hexec ht
    exact hexplains
  · cases hu.symm.trans ht

/-! ## Timers and idling (R283) -/

/-- Settles O13: the instruction leaves a timer alone unless its rule names it, and the timer update follows. -/
theorem timersCountCompletedSteps : Obligations.TimersCountCompletedSteps := by
  intro s t i hd h ht
  obtain ⟨j, u, hj, hexec, rfl⟩ := exec_of_step_eq_next h ht
  cases hd.symm.trans hj
  have hframe := partsWrittenAreThoseOfTheRules i s u hexec
  constructor
  · intro hi
    have hdt : u.dt = s.dt := hframe .dt (by
      cases i with
      | ldDtV x => exact absurd rfl (hi x)
      | _ => simp [Instr.partsWritten])
    exact (tick_toNat u.dt).trans (by rw [hdt])
  · intro hi
    have hst : u.st = s.st := hframe .st (by
      cases i with
      | ldStV x => exact absurd rfl (hi x)
      | _ => simp [Instr.partsWritten])
    exact (tick_toNat u.st).trans (by rw [hst])

theorem run_succ_of_step {s t : State} (h : step s = .next t) (n : Nat) :
    Host.Core.run core (n + 1) s = Host.Core.run core n t := by
  have h : core.step s = .next t := h
  simp only [Host.Core.run, h]

/-- A jump to its own address leaves the state as it is, and the step updates the timers. -/
theorem step_of_jumpToItself {s : State} {nnn : Addr} (hs : s.fault = none) (hd : fetchDecode s = .ok (.jp nnn))
    (hpc : nnn.toNat = s.pc.toNat) : step s = .next s.timerUpdate := by
  have htarget : addrOperand nnn = s.pc := BitVec.eq_of_toNat_eq ((addrOperand_toNat nnn).trans hpc)
  have hexec : exec (.jp nnn) s = .next s := by rw [exec, execJp, htarget]; rfl
  exact step_of_exec_eq_next hs hd hexec hs

theorem ofNat_tick_sub (b : Byte) (n : Nat) :
    BitVec.ofNat 8 ((tick b).toNat - n) = BitVec.ofNat 8 (b.toNat - (n + 1)) := by
  rw [tick_toNat, Nat.sub_sub, Nat.add_comm]

/-- Settles O14, by induction on the number of steps: the first one updates the timers, and the state it leaves idles on. -/
theorem jumpToItselfIdles : Obligations.JumpToItselfIdles := by
  intro s nnn n hs hd hpc
  refine ⟨?_, hs⟩
  induction n generalizing s with
  | zero => simp [Host.Core.run]
  | succ n ih =>
    have hrun := ih s.timerUpdate hs hd hpc
    rw [run_succ_of_step (step_of_jumpToItself hs hd hpc)]
    simpa [ofNat_tick_sub] using hrun

/-! ## The trace (R290) -/

theorem exec_eq_next (i : Instr) (s : State) : ∃ t, exec i s = .next t := by
  rcases exec_cases i s with ⟨_, h⟩ | ⟨t, h, _⟩
  · exact ⟨_, h⟩
  · exact ⟨t, h⟩

theorem runsNext_eq_some_iff {s : State} {i : Instr} :
    s.runsNext = some i ↔ s.fault = none ∧ fetchDecode s = .ok i ∧ ∃ t, exec i s = .next t ∧ t.fault = none := by
  unfold State.runsNext
  cases hs : s.fault with
  | some e => simp
  | none =>
    cases hd : fetchDecode s with
    | error e => simp
    | ok j =>
      obtain ⟨t, ht⟩ := exec_eq_next j s
      simp only [ht, ne_eq, not_true, if_false]
      constructor
      · intro h
        split at h
        next hf => cases h; exact ⟨trivial, rfl, t, ht, hf⟩
        next => cases h
      · rintro ⟨_, hji, t', ht', hf⟩
        cases hji
        cases ht.symm.trans ht'
        exact if_pos hf

theorem trace_eq_some_iff {s : State} {r : TraceRecord} :
    s.trace = some r ↔ ∃ i w, s.runsNext = some i ∧ fetch s = .ok w ∧ r = ⟨s.pc, w, i.mnemonic, i⟩ := by
  unfold State.trace
  split
  next i w hi hw => simp [hi, hw, eq_comm]
  next h =>
    simp only [reduceCtorEq, false_iff, not_exists]
    rintro i w ⟨hi, hw, _⟩
    exact h i w hi hw

/-- Settles O44: a record and a completed step both come of one instruction that is fetched, decoded and run without an error. -/
theorem traceRecordsCompletedSteps : Obligations.TraceRecordsCompletedSteps := by
  intro s
  constructor
  · constructor
    · rintro ⟨r, hr⟩
      obtain ⟨i, w, hi, _, _⟩ := trace_eq_some_iff.mp hr
      obtain ⟨hs, hd, t, hexec, ht⟩ := runsNext_eq_some_iff.mp hi
      exact ⟨_, step_of_exec_eq_next hs hd hexec ht, ht⟩
    · rintro ⟨t, hstep, ht⟩
      rcases step_eq_next hstep with ⟨hs, ⟨e, _, rfl⟩ | ⟨i, e, _, _, rfl⟩ | ⟨i, u, hd, hexec, hu, rfl⟩⟩
      · cases ht
      · cases ht
      · obtain ⟨w, hw, _⟩ := fetchDecode_eq_ok_iff.mp hd
        exact ⟨_, trace_eq_some_iff.mpr ⟨i, w, runsNext_eq_some_iff.mpr ⟨hs, hd, u, hexec, hu⟩, hw, rfl⟩⟩
  · intro r hr
    obtain ⟨i, w, hi, hw, rfl⟩ := trace_eq_some_iff.mp hr
    obtain ⟨_, hd, _⟩ := runsNext_eq_some_iff.mp hi
    obtain ⟨w', hw', hdec⟩ := fetchDecode_eq_ok_iff.mp hd
    cases hw.symm.trans hw'
    exact ⟨rfl, hw, hdec, rfl⟩

end Sys2Proof.Machine
end

section
/-! PROOFS. 40_control_flow.md: the call stack (R110, R112) and the skips on two registers (R115, R116). -/
namespace Sys2Proof

theorem decode_wordFXNN_ret (k : Nibble) : decode false (wordFXNN 0x0 k 0xEE) = .ok .ret := by
  simp [decode, decodeFamily0]

theorem decode_wordFXYN_seReg {strict : Bool} {n : Nibble} (x y : Nibble) (h : strict = false ∨ n = 0) :
    decode strict (wordFXYN 0x5 x y n) = .ok (.seReg x y) := by
  rcases h with rfl | rfl <;> simp [decode, decodePair]

theorem decode_wordFXYN_sneReg {strict : Bool} {n : Nibble} (x y : Nibble) (h : strict = false ∨ n = 0) :
    decode strict (wordFXYN 0x9 x y n) = .ok (.sneReg x y) := by
  rcases h with rfl | rfl <;> simp [decode, decodePair]

theorem decode_wordFXYN_pair_error {n : Nibble} (x y : Nibble) (hn : n ≠ 0) :
    decode true (wordFXYN 0x5 x y n) = .error (.unknownOpcode (wordFXYN 0x5 x y n)) ∧
      decode true (wordFXYN 0x9 x y n) = .error (.unknownOpcode (wordFXYN 0x9 x y n)) := by
  have hn : n ≠ 0#4 := hn
  simp [decode, decodePair, hn]

end Sys2Proof

namespace Sys2Proof.Machine

theorem exec_call_of_lt {s : State} (nnn : Addr) (h : s.sp.val < 16) :
    exec (.call nnn) s = .next ((s.push s.pc h).setPc (addrOperand nnn)) :=
  dif_pos h

theorem exec_call_of_full {s : State} (nnn : Addr) (h : s.sp.val = 16) :
    exec (.call nnn) s = .next { s with fault := some (.stackOverflow s.pc) } :=
  dif_neg (by omega)

theorem exec_ret_of_frame {s : State} (k : Fin 16) (h : s.sp.val = k.val + 1) :
    exec .ret s = .next (s.pop.setPc (s.stack[k.val] + 2)) := by
  have hsp : s.sp.val ≠ 0 := by omega
  have htop : s.top hsp = s.stack[k.val] := by simp only [State.top, h, Nat.add_sub_cancel]
  rw [← htop]
  exact dif_neg hsp

theorem exec_ret_of_empty {s : State} (h : s.sp.val = 0) :
    exec .ret s = .next { s with fault := some (.stackUnderflow s.pc) } :=
  dif_pos h

/-- Settles O16: with room a CALL is a push and a `setPc`. -/
theorem callPushesItsOwnAddress : Obligations.CallPushesItsOwnAddress := fun s nnn =>
  ⟨fun strict => decodeUndoesEncode strict (.call nnn),
    fun h => ⟨_, exec_call_of_lt nnn h, Vector.getElem_set_self h,
      fun k hk => Vector.getElem_set_ne h k.isLt (Ne.symm hk), rfl, addrOperand_toNat nnn,
      (s.push_unchangedBut s.pc h).setPc _⟩,
    exec_call_of_full nnn⟩

/-- Settles O17: with a frame a RET is a pop and a `setPc`. -/
theorem returnPopsAndAdvances : Obligations.ReturnPopsAndAdvances :=
  ⟨fun strict k => ⟨decodeUndoesEncode strict .ret, decode_wordFXNN_ret k⟩, fun s =>
    ⟨fun k h => ⟨_, exec_ret_of_frame k h, BitVec.toNat_add _ _, (congrArg (· - 1) h : s.sp.val - 1 = k.val),
      s.pop_unchangedBut.setPc _⟩,
    exec_ret_of_empty⟩⟩

/-- Settles O18: the frame that the RET pops is the slot that the CALL wrote. -/
theorem returnUndoesCall : Obligations.ReturnUndoesCall := by
  intro s t u nnn hcall hsp hstack husp
  cases (exec_call_of_lt nnn hsp).symm.trans hcall
  have hu : u.sp.val = s.sp.val + 1 := congrArg Fin.val husp
  refine ⟨_, exec_ret_of_frame ⟨s.sp.val, hsp⟩ hu, ?_, ?_⟩
  · have htop : u.stack[s.sp.val] = s.pc := by rw [hstack]; exact Vector.getElem_set_self hsp
    exact congrArg (· + 2) htop
  · exact Fin.ext (congrArg (· - 1) hu)

/-- Settles O20: each is a `skipIf`, on equality or on inequality of V[x] and V[y]. -/
theorem registerSkips : Obligations.RegisterSkips := fun s x y _ =>
  ⟨fun _ h => ⟨decode_wordFXYN_seReg x y h, decode_wordFXYN_sneReg x y h⟩, decode_wordFXYN_pair_error x y,
    ⟨_, rfl, s.skipIf_beq_pc_toNat (s.reg x) (s.reg y), s.skipIf_unchangedBut_pc _⟩,
    ⟨_, rfl, s.skipIf_bne_pc_toNat (s.reg x) (s.reg y), s.skipIf_unchangedBut_pc _⟩⟩

end Sys2Proof.Machine
end

section
/-! PROOFS. 41_alu.md: register loads and the ALU are one write of V[x] and an advance, or a result, then a flag, and an
advance (R141 to R153). -/
namespace Sys2Proof.Machine

/-- Settles O21: each writes V[x] alone. -/
theorem loadsAndImmediateAdd : Obligations.LoadsAndImmediateAdd := fun s x y nn =>
  have regs := s.setReg_regsUnchangedBut x
  have frame b := (s.setReg_unchangedBut_v x b).advance
  ⟨fun strict => ⟨decodeUndoesEncode strict (.ldImm x nn), decodeUndoesEncode strict (.addImm x nn),
      decodeUndoesEncode strict (.ldReg x y)⟩,
    ⟨_, rfl, s.reg_setReg_same x nn, rfl, regs _, frame _⟩,
    ⟨_, rfl, (congrArg BitVec.toNat (s.reg_setReg_same x _)).trans (BitVec.toNat_add _ _), rfl, regs _, frame _⟩,
    ⟨_, rfl, s.reg_setReg_same x _, rfl, regs _, frame _⟩⟩

/-- Settles O22: each writes V[x] alone, and a bit of the result is that of the two operands' bits. -/
theorem bitwiseOperations : Obligations.BitwiseOperations := by
  intro s x y
  have regs := s.setReg_regsUnchangedBut x
  have frame b := (s.setReg_unchangedBut_v x b).advance
  refine ⟨⟨_, rfl, fun k => ?_, rfl, regs _, frame _⟩, ⟨_, rfl, fun k => ?_, rfl, regs _, frame _⟩,
    ⟨_, rfl, fun k => ?_, rfl, regs _, frame _⟩⟩ <;>
    rw [State.advance_reg, State.reg_setReg_same]
  · rw [BitVec.getLsbD_or, Bool.or_eq_true]
  · rw [BitVec.getLsbD_and, Bool.and_eq_true]
  · rw [BitVec.getLsbD_xor]
    cases (s.reg x).getLsbD k <;> cases (s.reg y).getLsbD k <;> decide

/-! ## A result and a flag (R141) -/

theorem flagByte_toNat (b : Bool) : (flagByte b).toNat = if b then 1 else 0 := by
  cases b <;> rfl

/-- What an instruction does that writes a result to V[x] and then a flag to VF. -/
theorem exists_next_of_resultAndFlag {s : State} {x : Nibble} {r : Byte} {f : Bool} {result : Result} {p q : Nat}
    (hresult : result = .next (s.setResultAndFlag x r f).advance) (hr : r.toNat = p) (hf : (flagByte f).toNat = q) :
    ∃ t, result = .next t ∧ (x ≠ flagReg → (t.reg x).toNat = p) ∧ (t.reg flagReg).toNat = q ∧ t.pc = s.pc + 2 ∧
      RegsUnchangedBut [x, flagReg] s t ∧ UnchangedBut [.v, .pc] s t := by
  refine ⟨_, hresult, fun hx => ?_, ?_, rfl, s.setResultAndFlag_regsUnchangedBut x r f,
    (s.unchangedBut_v_of_eq _ (s.setResultAndFlag_eq x r f)).advance⟩
  · rw [State.advance_reg, State.reg_setResultAndFlag, if_neg hx, if_pos rfl, hr]
  · rw [State.advance_reg, State.reg_setResultAndFlag, if_pos rfl, hf]

/-- Settles O23: the result is the sum and the flag the carry, both of the old operands. -/
theorem addSetsCarry : Obligations.AddSetsCarry := fun s x y =>
  ⟨fun strict => decodeUndoesEncode strict (.addReg x y),
    exists_next_of_resultAndFlag rfl (BitVec.toNat_add _ _) (by simp [flagByte_toNat, carry])⟩

theorem sub_toNat (a b : Byte) : (a - b).toNat = (a.toNat + 256 - b.toNat) % 256 := by
  bv_omega

/-- Settles O24: the result is a difference and the flag its `noBorrow`, both of the old operands. -/
theorem subtractionsSetNoBorrow : Obligations.SubtractionsSetNoBorrow := fun _ _ _ =>
  ⟨exists_next_of_resultAndFlag rfl (sub_toNat _ _) (by simp [flagByte_toNat, noBorrow]),
    exists_next_of_resultAndFlag rfl (sub_toNat _ _) (by simp [flagByte_toNat, noBorrow])⟩

/-! ## Shifts -/

theorem shiftOperand_toNat {s : State} {x y : Nibble} {a : Nat} (hvx : s.cfg.shiftSource = .vx → a = (s.reg x).toNat)
    (hvy : s.cfg.shiftSource = .vy → a = (s.reg y).toNat) : (s.shiftOperand x y).toNat = a := by
  unfold State.shiftOperand
  split
  next h => exact (hvx h).symm
  next h => exact (hvy h).symm

theorem bitOutRight_toNat (b : Byte) : (flagByte (bitOutRight b)).toNat = b.toNat % 2 := by
  rw [flagByte_toNat, bitOutRight, BitVec.getLsbD, Nat.testBit_zero]
  split <;> simp_all

theorem bitOutLeft_toNat (b : Byte) : (flagByte (bitOutLeft b)).toNat = b.toNat / 128 := by
  have hb : b.toNat < 256 := b.isLt
  rw [flagByte_toNat, bitOutLeft, BitVec.getLsbD, Nat.testBit_eq_decide_div_mod_eq]
  split <;> simp_all <;> omega

/-- Settles O25: the result is the source shifted and the flag the bit shifted out, whichever register the source is. -/
theorem shiftsMoveOneBit : Obligations.ShiftsMoveOneBit := by
  intro s x y a hvx hvy
  have ha := shiftOperand_toNat hvx hvy
  constructor
  · exact exists_next_of_resultAndFlag rfl (by rw [BitVec.toNat_ushiftRight, Nat.shiftRight_eq_div_pow, ha])
      (by rw [bitOutRight_toNat, ha])
  · exact exists_next_of_resultAndFlag rfl (by rw [BitVec.toNat_shiftLeft, Nat.shiftLeft_eq, ha])
      (by rw [bitOutLeft_toNat, ha])

/-- Settles O26: a draw is counted, and its byte, whatever it is, is masked and written to V[x]. -/
theorem randomByteIsMasked : Obligations.RandomByteIsMasked := by
  intro s x nn
  refine ⟨_, rfl, fun k => ?_, rfl, rfl, s.countDraw.setReg_regsUnchangedBut x _,
    ((s.countDraw_unchangedBut.trans (s.countDraw.setReg_unchangedBut_v x _)).setPc _).mono (by decide)⟩
  rw [State.advance_reg, State.reg_setReg_same, BitVec.getLsbD_and, Bool.and_eq_true, State.nextRandom]

end Sys2Proof.Machine
end

section
/-! PROOFS. 44_keys_timers.md: the key skips (R240 to R242) and the key wait (R244). -/
namespace Sys2Proof.Machine

/-! ## The key that a register names -/

theorem keyFlag_eq {s : State} {j : Nibble} {k : Fin 16} (h : j.toNat = k.val) : s.keyFlag j = s.key[k] := by
  simp only [State.keyFlag, h]
  rfl

theorem keyPressed_eq {s : State} {b : Byte} {k : Fin 16}
    (h : b.toNat = k.val ∨ (b.toNat > 0xF ∧ s.cfg.keyIndexHigh = .lowNibble ∧ b.toNat % 16 = k.val)) :
    s.keyPressed b = s.key[k] := by
  have hk : (b.setWidth 4).toNat = k.val := by
    rw [BitVec.toNat_setWidth]
    rcases h with h | ⟨_, _, h⟩
    · rw [h, Nat.mod_eq_of_lt k.isLt]
    · exact h
  have hflag : s.keyFlag (b.setWidth 4) = s.key[k] := keyFlag_eq hk
  unfold State.keyPressed
  rcases h with h | ⟨hhigh, hcfg, _⟩
  · rw [if_pos (by omega), hflag]
  · rw [if_neg (by omega), hcfg, hflag]

theorem keyPressed_of_notPressed {s : State} {b : Byte} (h : b.toNat > 0xF) (hcfg : s.cfg.keyIndexHigh = .notPressed) :
    s.keyPressed b = false := by
  rw [State.keyPressed, if_neg (by omega), hcfg]

/-- Settles O37: each is a `skipIf` on what `KeyPressed` answers. -/
theorem keySkips : Obligations.KeySkips := by
  intro s x
  refine ⟨fun k h => ⟨⟨_, rfl, ?_, s.skipIf_unchangedBut_pc _⟩, ⟨_, rfl, ?_, s.skipIf_unchangedBut_pc _⟩⟩,
    fun hv hcfg => ⟨⟨_, rfl, ?_, s.skipIf_unchangedBut_pc _⟩, ⟨_, rfl, ?_, s.skipIf_unchangedBut_pc _⟩⟩⟩
  · rw [State.skipIf_pc_toNat, keyPressed_eq h]
  · rw [State.skipIf_pc_toNat, keyPressed_eq h]
    cases s.key[k] <;> rfl
  · rw [State.skipIf_pc_toNat, keyPressed_of_notPressed hv hcfg]
    rfl
  · rw [State.skipIf_pc_toNat, keyPressed_of_notPressed hv hcfg]
    rfl

/-! ## The lowest pressed key -/

theorem keyFlag_ofNat (s : State) (k : Fin 16) : s.keyFlag (BitVec.ofNat 4 k.val) = s.key[k] :=
  keyFlag_eq ((BitVec.toNat_ofNat ..).trans (Nat.mod_eq_of_lt k.isLt))

theorem lowestKey_eq_some {s : State} {k : Fin 16} (hk : s.key[k] = true) (hlow : ∀ j : Fin 16, j < k → s.key[j] = false) :
    s.lowestKey = some (BitVec.ofNat 4 k.val) := by
  have hfind : (List.range 16).find? (s.keyFlag ∘ BitVec.ofNat 4) = some k.val := by
    refine List.find?_range_eq_some.mpr ⟨(keyFlag_ofNat s k).trans hk, List.mem_range.mpr k.isLt, fun j hj => ?_⟩
    have hj : j < k.val := hj
    have hflag : s.keyFlag (BitVec.ofNat 4 j) = false :=
      (keyFlag_ofNat s ⟨j, by omega⟩).trans (hlow ⟨j, by omega⟩ hj)
    simp [hflag]
  rw [State.lowestKey, keyNumbers, List.find?_map, hfind]
  rfl

theorem lowestKey_eq_none {s : State} (h : ∀ j : Fin 16, s.key[j] = false) : s.lowestKey = none := by
  refine List.find?_eq_none.mpr fun j _ => ?_
  have hflag : s.keyFlag j = false := (keyFlag_eq (k := ⟨j.toNat, j.isLt⟩) rfl).trans (h _)
  simp [hflag]

/-- Settles O38: the meaning goes by `lowestKey`, which the two hypotheses give. -/
theorem keyWait : Obligations.KeyWait := by
  intro s x
  constructor
  · intro k hk hlow
    have hexec : exec (.ldVK x) s = .next (s.setReg x ((BitVec.ofNat 4 k.val).setWidth 8)).advance := by
      rw [exec, execLdVK, lowestKey_eq_some hk hlow]
    refine ⟨_, hexec, ?_, rfl, s.setReg_regsUnchangedBut x _, (s.setReg_unchangedBut_v x _).advance⟩
    rw [State.advance_reg, State.reg_setReg_same, BitVec.toNat_setWidth, BitVec.toNat_ofNat]
    omega
  · intro h
    rw [exec, execLdVK, lowestKey_eq_none h]

end Sys2Proof.Machine
end

section
/-! PROOFS. 42_index_memory.md: the memory-indexed operations (R182, R184 to R186), and what reads back what they stored (R66). -/
namespace Sys2Proof.Machine

/-- Settles O28: a `setI` of the sum and an advance. -/
theorem addToAddressRegisterWraps : Obligations.AddToAddressRegisterWraps := by
  intro s x
  refine ⟨_, rfl, ?_, rfl, s.setI_advance_unchangedBut_i_pc _⟩
  rw [State.advance_i, State.setI_i, BitVec.toNat_add, zext16_toNat]

/-! ## Stores -/

section
variable {s : State} {base : Nat} {bytes : List Byte} {k : State → State}

theorem withStore_of_inBounds (hb : bytes ≠ []) (hlen : base + bytes.length ≤ 0x1000)
    (hr : ¬ (s.cfg.reservedWrite = .fault ∧ base < 0x200)) :
    s.withStore base bytes k = .next (k (s.writeBytes base bytes)) := by
  rcases s.withStore_cases base bytes k hb with ⟨_, h⟩ | ⟨⟨hlow, hcfg⟩, _⟩ | ⟨⟨hout, _⟩, _⟩
  · exact h
  · exact absurd ⟨hcfg, hlow⟩ hr
  · exact absurd hlen (Nat.not_le.mpr hout)

theorem withStore_of_reserved (hb : bytes ≠ []) (hr : s.cfg.reservedWrite = .fault ∧ base < 0x200) :
    s.withStore base bytes k = .next { s with fault := some (.outOfBounds .reservedWrite base s.pc) } := by
  rcases s.withStore_cases base bytes k hb with ⟨⟨_, hn⟩, _⟩ | ⟨_, h⟩ | ⟨⟨_, hn⟩, _⟩
  · exact absurd ⟨hr.2, hr.1⟩ hn
  · exact h
  · exact absurd ⟨hr.2, hr.1⟩ hn

theorem withStore_of_outOfBounds (hlen : 0x1000 < base + bytes.length) (hhigh : 0x200 ≤ base) (hb : bytes ≠ []) :
    s.withStore base bytes k = .next { s with fault := some (.outOfBounds .write (max base 0x1000) s.pc) } := by
  rcases s.withStore_cases base bytes k hb with ⟨⟨hin, _⟩, _⟩ | ⟨⟨hlow, _⟩, _⟩ | ⟨_, h⟩
  · exact absurd hlen (Nat.not_lt.mpr hin)
  · exact absurd hhigh (Nat.not_le.mpr hlow)
  · exact h

end

theorem bcdDigits_length (b : Byte) : (bcdDigits b).length = 3 := rfl

theorem bcd_toNat (b : Byte) : (b / 100).toNat = b.toNat / 100 ∧ (b / 10 % 10).toNat = b.toNat / 10 % 10 ∧
    (b % 10).toNat = b.toNat % 10 :=
  ⟨BitVec.toNat_udiv, by rw [BitVec.toNat_umod, BitVec.toNat_udiv]; rfl, BitVec.toNat_umod⟩

/-- Settles O29: in bounds a run of three writes and an advance; else the check of its addresses fails. -/
theorem bcdStore : Obligations.BcdStore := by
  intro s x hm
  refine ⟨fun strict => decodeUndoesEncode strict (.ldB x), fun ha hr => ?_, fun hr => ?_, fun ha => ?_⟩
  · have hexec : exec (.ldB x) s = .next (s.writeBytes s.i.toNat (bcdDigits (s.reg x))).advance :=
      withStore_of_inBounds (bcdDigits_ne_nil _) (show s.i.toNat + 3 ≤ 0x1000 by omega) hr
    obtain ⟨h0, h1, h2⟩ := bcd_toNat (s.reg x)
    have read := s.readByte_writeBytes_inside s.i.toNat (bcdDigits (s.reg x)) hm
    refine ⟨_, hexec, (congrArg BitVec.toNat (read 0 (by rw [bcdDigits_length]; decide))).trans h0,
      (congrArg BitVec.toNat (read 1 (by rw [bcdDigits_length]; decide))).trans h1,
      (congrArg BitVec.toNat (read 2 (by rw [bcdDigits_length]; decide))).trans h2, fun p hp => ?_, ?_,
      (s.writeBytes_unchangedBut_mem _ _).advance⟩
    · exact s.readByte_writeBytes_outside _ _ hm p (hp.imp_right fun h => show s.i.toNat + 3 ≤ p by omega)
    · rw [State.advance_pc, State.writeBytes_pc]
  · exact withStore_of_reserved (bcdDigits_ne_nil _) hr
  · exact withStore_of_outOfBounds (show 0x1000 < s.i.toNat + 3 by omega) (show 0x200 ≤ s.i.toNat by omega)
      (bcdDigits_ne_nil _)

/-! ## Loads -/

section
variable {s : State} {base n : Nat} {k : List Byte → State}

theorem withLoad_of_inBounds (h : base + n ≤ 0x1000 ∨ n = 0) :
    s.withLoad base n k = .next (k (s.readBytes base n)) := by
  rcases s.withLoad_cases base n k with ⟨_, hk⟩ | ⟨⟨hout, hn⟩, _⟩
  · exact hk
  · rcases h with h | h
    · exact absurd h (Nat.not_le.mpr hout)
    · exact absurd h hn

theorem withLoad_of_outOfBounds (h : 0x1000 < base + n) (hn : n ≠ 0) :
    s.withLoad base n k = .next { s with fault := some (.outOfBounds .read (max base 0x1000) s.pc) } := by
  rcases s.withLoad_cases base n k with ⟨hin | hzero, _⟩ | ⟨_, he⟩
  · exact absurd h (Nat.not_lt.mpr hin)
  · exact absurd hzero hn
  · exact he

end

/-! ## Registers to memory and back -/

theorem reg_ofNat_toNat (s : State) (k : Nibble) : s.reg (BitVec.ofNat 4 k.toNat) = s.reg k := by
  rw [BitVec.ofNat_toNat, BitVec.setWidth_eq]

/-- R185, R186: the new `I` of a transfer in bounds, where the modulus does not act. -/
theorem addI_toNat {i : Word} {x : Nibble} (h : i.toNat + x.toNat ≤ 0xFFF) :
    (i + x.setWidth 16 + 1).toNat = i.toNat + x.toNat + 1 := by
  have hx : (x.setWidth 16).toNat = x.toNat := BitVec.toNat_setWidth_of_le (by decide)
  bv_omega

/-- Settles O30: in bounds a run of writes, the new `I` and an advance; else the check of its addresses fails. -/
theorem registerDump : Obligations.RegisterDump := by
  intro s x hm
  have hlen := s.regsUpTo_length x
  refine ⟨fun strict => decodeUndoesEncode strict (.ldMemV x), fun ha hr => ?_, fun hr => ?_, fun ha => ?_⟩
  · have hexec : exec (.ldMemV x) s = .next
        (((s.writeBytes s.i.toNat (s.regsUpTo x)).setI (s.i + x.setWidth 16 + 1)).advance) := by
      rw [exec, execLdMemV, State.dataBase, withStore_of_inBounds (s.regsUpTo_ne_nil x) (by omega) hr, State.writeBytes_i]
    refine ⟨_, hexec, fun k hk => ?_, fun p hp => ?_, addI_toNat ha, ?_, ?_⟩
    · have hread := s.readByte_writeBytes_inside s.i.toNat (s.regsUpTo x) hm k.toNat (by omega)
      exact hread.trans ((s.regsUpTo_getElem x k.toNat _).trans (reg_ofNat_toNat s k))
    · exact s.readByte_writeBytes_outside _ _ hm p (by omega)
    · rw [State.advance_pc, State.setI_pc, State.writeBytes_pc]
    · exact (((s.writeBytes_unchangedBut_mem _ _).trans (State.setI_unchangedBut _ _)).setPc _).mono (by decide)
  · rw [exec, execLdMemV]
    exact withStore_of_reserved (s.regsUpTo_ne_nil x) hr
  · rw [exec, execLdMemV, State.dataBase]
    exact withStore_of_outOfBounds (by omega) (by omega) (s.regsUpTo_ne_nil x)

/-- Settles O31: in bounds the bytes read go to V0 and up; else the check of their addresses fails. -/
theorem registerLoad : Obligations.RegisterLoad := by
  intro s x
  refine ⟨fun strict => decodeUndoesEncode strict (.ldVMem x), fun ha => ?_, fun ha => ?_⟩
  · have hlen := s.readBytes_length s.i.toNat (x.toNat + 1)
    have hexec : exec (.ldVMem x) s = .next
        (((s.setRegs 0 (s.readBytes s.i.toNat (x.toNat + 1))).setI (s.i + x.setWidth 16 + 1)).advance) := by
      rw [exec, execLdVMem, State.dataBase, withLoad_of_inBounds (.inl (by omega))]
      simp only [State.setRegs_i]
    have hreg (k : Nibble) := s.reg_setRegs 0 (s.readBytes s.i.toNat (x.toNat + 1)) k (by omega)
    refine ⟨_, hexec, fun k hk => ?_, fun k hk => ?_, addI_toNat ha, ?_, ?_⟩
    · refine (hreg k).trans ?_
      rw [if_pos (Nat.zero_le _), Nat.sub_zero, List.getElem?_eq_getElem (by omega), Option.getD_some,
        State.readBytes_getElem]
    · refine (hreg k).trans ?_
      rw [if_pos (Nat.zero_le _), Nat.sub_zero, List.getElem?_eq_none (by omega), Option.getD_none]
    · rw [State.advance_pc, State.setI_pc, State.setRegs_pc]
    · exact (((s.unchangedBut_v_of_eq _ (s.setRegs_eq _ _)).trans (State.setI_unchangedBut _ _)).setPc _).mono (by decide)
  · rw [exec, execLdVMem, State.dataBase]
    exact withLoad_of_outOfBounds (by omega) (by omega)

/-- What memory holds after a dump that completed. -/
theorem readByte_of_dump {s t : State} {x : Nibble} (hm : s.MemCanonical) (h : exec (.ldMemV x) s = .next t)
    (ht : t.fault = none) : s.i.toNat + x.toNat ≤ 0xFFF ∧
      ∀ k : Nibble, k.toNat ≤ x.toNat → t.readByte (s.i.toNat + k.toNat) = s.reg k := by
  obtain ⟨_, hin, hreserved, hout⟩ := registerDump s x hm
  by_cases ha : s.i.toNat + x.toNat ≤ 0xFFF
  · by_cases hr : s.cfg.reservedWrite = .fault ∧ s.i.toNat < 0x200
    · cases (hreserved hr).symm.trans h
      cases ht
    · obtain ⟨t', ht', hread, _⟩ := hin ha hr
      cases ht'.symm.trans h
      exact ⟨ha, hread⟩
  · cases (hout (by omega)).symm.trans h
    cases ht

/-- Settles O32: the load reads the bytes that the dump stored. -/
theorem loadUndoesDump : Obligations.LoadUndoesDump := by
  intro s t u x hm _ h ht hmem hcfg hi
  obtain ⟨ha, hread⟩ := readByte_of_dump hm h ht
  obtain ⟨_, hload, _⟩ := registerLoad u x
  obtain ⟨w, hw, hreg, _⟩ := hload (by rw [hi]; exact ha)
  refine ⟨w, hw, fun k hk => ?_⟩
  rw [hreg k hk, hi, State.readByte_congr hmem hcfg, hread k hk]

/-- Settles O33: the two bytes fetched are two that the dump stored. -/
theorem fetchSeesStoredBytes : Obligations.FetchSeesStoredBytes := by
  intro s t u x j k hm _ h ht hmem hcfg hkj hkx hpc
  obtain ⟨ha, hread⟩ := readByte_of_dump hm h ht
  refine ⟨_, fetch_of_inBounds u (by omega), ?_⟩
  rw [wordOfBytes_toNat, State.readByte_congr hmem hcfg, State.readByte_congr hmem hcfg, hpc, hread j (by omega),
    Nat.add_assoc, ← hkj, hread k hkx]

end Sys2Proof.Machine
end

section
/-! PROOFS. 43_display.md: clearing (R211) and drawing (R212 to R214), by what a sprite scan does to every cell. -/
namespace Sys2Proof.Machine

/-- Settles O34: the display written is the clear one. -/
theorem clearDisplay : Obligations.ClearDisplay := fun s =>
  ⟨_, rfl, fun _ => Display.cell_clear _ _, rfl, rfl, ((s.redrawWith_unchangedBut _).setPc _).mono (by decide)⟩

/-- The state that a completed Dxyn leaves (R212). -/
def State.drawn (s : State) (x y n : Nibble) : State :=
  let b := blitRows ⟨s.disp, false⟩ (s.reg x).toNat (s.reg y).toNat (s.readBytes s.i.toNat n.toNat)
  ((s.setFlag b.hit).redrawWith b.disp).advance

/-- The cells on which a set bit of the sprite of Dxyn falls. -/
def State.Covered (s : State) (x y n : Nibble) : Fin 64 → Fin 32 → Prop :=
  SpriteCovers (s.readBytes s.i.toNat n.toNat) (s.reg x).toNat (s.reg y).toNat

section
variable (s : State) (x y n : Nibble)

theorem exec_drw_of_inBounds (h : s.i.toNat + n.toNat ≤ 0x1000 ∨ n = 0) :
    exec (.drw x y n) s = .next (s.drawn x y n) := by
  rw [exec, execDrw, State.dataBase, withLoad_of_inBounds (h.imp_right (congrArg BitVec.toNat))]
  rfl

theorem exec_drw_of_outOfBounds (h : s.i.toNat + n.toNat > 0x1000) (hn : n ≠ 0) :
    exec (.drw x y n) s = .next { s with fault := some (.outOfBounds .read (max s.i.toNat 0x1000) s.pc) } := by
  rw [exec, execDrw, State.dataBase]
  exact withLoad_of_outOfBounds h fun h0 => hn (BitVec.eq_of_toNat_eq h0)

/-- A cell changes exactly when it is covered. -/
theorem cell_drawn (px : Fin 64) (py : Fin 32) : Display.cell (s.drawn x y n).disp px py = true ↔
    ¬ (Display.cell s.disp px py = true ↔ s.Covered x y n px py) :=
  (blitRows_spec _ ⟨s.disp, false⟩ _ _ (by rw [State.readBytes_length]; omega)).1 px py

/-- VF is the flag of a collision with a covered cell. -/
theorem flag_drawn : ∃ hit : Bool, (s.drawn x y n).reg flagReg = flagByte hit ∧
    (hit = true ↔ ∃ px py, s.Covered x y n px py ∧ Display.cell s.disp px py = true) := by
  obtain ⟨_, hhit⟩ := blitRows_spec (s.readBytes s.i.toNat n.toNat) ⟨s.disp, false⟩ (s.reg x).toNat (s.reg y).toNat
    (by rw [State.readBytes_length]; omega)
  exact ⟨_, s.reg_setReg_same flagReg _, hhit.trans (by simp [State.Covered])⟩

theorem flag_drawn_eq_one_iff : (s.drawn x y n).reg flagReg = 1 ↔
    ∃ px py, s.Covered x y n px py ∧ Display.cell s.disp px py = true := by
  obtain ⟨hit, hflag, hhit⟩ := flag_drawn s x y n
  rw [hflag, ← hhit]
  cases hit <;> decide

end

/-- Settles O35: in bounds Dxyn leaves `State.drawn`, whose cells and flag are those of the scan. -/
theorem drawTogglesTheCoveredCells : Obligations.DrawTogglesTheCoveredCells := by
  intro s x y n
  refine ⟨fun h => ?_, exec_drw_of_outOfBounds s x y n⟩
  have hexec := exec_drw_of_inBounds s x y n h
  obtain ⟨hit, hflag, hhit⟩ := flag_drawn s x y n
  refine ⟨_, hexec, cell_drawn s x y n, fun hc => ?_, fun hc => ?_, rfl, rfl,
    registersWrittenAreThoseOfTheTable _ s _ hexec,
    (partsWrittenAreThoseOfTheRules _ s _ hexec).of_fault_eq rfl (by simp [Instr.partsWritten])⟩
  · rw [hflag, hhit.mpr hc]; rfl
  · rw [hflag, Bool.eq_false_iff.mpr (mt hhit.mp hc)]; rfl

/-- Settles O36: the second draw covers the same cells, so that each is toggled twice or not at all; and a covered cell is set
before it exactly when it was clear before the first. -/
theorem drawingTwiceRestores : Obligations.DrawingTwiceRestores := by
  intro s t u x y n h hexec hdisp hmem hcfg hi hx hy
  cases (exec_drw_of_inBounds s x y n h).symm.trans hexec
  have hi : u.i = s.i := hi
  have hcovered : u.Covered x y n = s.Covered x y n := by
    rw [State.Covered, State.Covered, hi, hx, hy, State.readBytes_congr hmem hcfg]
    rfl
  have hcell (px py) : Display.cell u.disp px py = true ↔
      ¬ (Display.cell s.disp px py = true ↔ s.Covered x y n px py) := hdisp ▸ cell_drawn s x y n px py
  refine ⟨_, exec_drw_of_inBounds u x y n (by rw [hi]; exact h), ?_, ?_⟩
  · refine Display.ext_cell _ _ fun px py => Bool.eq_iff_iff.mpr ?_
    rw [cell_drawn, hcovered, hcell]
    tauto
  · rw [flag_drawn_eq_one_iff, hcovered]
    refine exists_congr fun px => exists_congr fun py => and_congr_right fun hc => ?_
    simp [hcell, hc]

end Sys2Proof.Machine
end

section
/-! PROOFS. 70_reset_and_hazards.md and 60_exceptions.md: the reset state (R40, R310 to R312) and the host's writes (R286 to
R288). -/
namespace Sys2Proof.Machine

/-! ## Reset -/

section
variable (c : Config) (d : Nat)

theorem resetWith_readByte_font (a : Fin 80) : (State.resetWith c d).readByte a.val = c.font[a.val] :=
  dif_pos a.isLt

theorem resetWith_readByte_zero (a : Nat) (ha : 0x50 ≤ a) : (State.resetWith c d).readByte a = 0 :=
  dif_neg (Nat.not_lt.mpr ha)

theorem resetWith_reg (r : Nibble) : (State.resetWith c d).reg r = 0 :=
  Vector.getElem_replicate r.isLt

theorem resetWith_keyFlag (k : Nibble) : (State.resetWith c d).keyFlag k = false :=
  Vector.getElem_replicate k.isLt

theorem resetWith_stack (k : Fin 16) : (State.resetWith c d).stack[k] = 0 :=
  Vector.getElem_replicate k.isLt

end

/-- Settles O40: the reset state read piece by piece; `pc` + 1 is in bounds, and a RET finds no frame. -/
theorem resetLeavesTheEntryState : Obligations.ResetLeavesTheEntryState :=
  ⟨rfl, fun c d => ⟨resetWith_readByte_font c d, resetWith_readByte_zero c d, resetWith_reg c d, rfl, rfl, rfl,
    fetch_of_inBounds _ (by decide : (0x200#16).toNat + 1 ≤ 0xFFF), exec_ret_of_empty rfl⟩⟩

/-- Settles O41: a host reset is `State.resetWith`, read piece by piece. -/
theorem resetClearsEverythingElse : Obligations.ResetClearsEverythingElse := fun s =>
  ⟨rfl, rfl, rfl, rfl, rfl, fun k => congrArg BitVec.toNat (resetWith_stack s.cfg s.draws k),
    fun _ => Display.cell_clear _ _, rfl, resetWith_keyFlag s.cfg s.draws, rfl⟩

/-! ## The host between steps -/

theorem State.keyFlag_writeKey (s : State) (k j : Nibble) (b : Bool) :
    (s.writeKey k b).keyFlag j = if j = k then b else s.keyFlag j := by
  have hkj : k.toNat = j.toNat ↔ j = k := by rw [BitVec.toNat_inj, eq_comm]
  simp only [State.keyFlag, State.writeKey, Vector.getElem_set, hkj]

theorem State.writeKey_unchangedBut (s : State) (k : Nibble) (b : Bool) : UnchangedBut [.key] s (s.writeKey k b) := by
  intro p hp
  cases p with
  | key => exact absurd (List.mem_singleton_self _) hp
  | v | mem => exact fun _ => rfl
  | _ => rfl

theorem State.clearRedraw_unchangedBut (s : State) : UnchangedBut [.redraw] s s.clearRedraw := by
  intro p hp
  cases p with
  | redraw => exact absurd (List.mem_singleton_self _) hp
  | v | mem => exact fun _ => rfl
  | _ => rfl

/-- Settles O43: the frame of each of the three actions. -/
theorem hostWritesOnlyItsOwn : Obligations.HostWritesOnlyItsOwn := by
  intro s
  refine ⟨fun k b => ⟨_, rfl, ?_, fun j hj => ?_, s.writeKey_unchangedBut k b⟩,
    ⟨_, rfl, rfl, s.clearRedraw_unchangedBut⟩, fun a t hstep hreset h => ?_⟩
  · rw [State.keyFlag_writeKey, if_pos rfl]
  · rw [State.keyFlag_writeKey, if_neg hj]
  · cases a with
    | step => exact absurd rfl hstep
    | reset => exact absurd rfl hreset
    | writeKey k b => cases h; exact ⟨(s.writeKey_unchangedBut k b).mono (by decide), id⟩
    | clearRedraw => cases h; exact ⟨s.clearRedraw_unchangedBut.mono (by decide), fun h => by cases h⟩
    | loadProgram bytes =>
      obtain ⟨_, rfl⟩ := loadProgram_eq_next h
      have hframe := s.writeBytes_unchangedBut_mem progBase bytes
      exact ⟨hframe.mono (by decide), fun ht => (hframe .redraw (by decide)).symm.trans ht⟩

end Sys2Proof.Machine
end
